-- ==== Sys2Proof/Word.lean ====
section
/-!
DEFINITION. The word types of B2E (spec/00_scope.md rules R5, R7, R8).
-/

namespace Sys2Proof

/-- WORD of R5: 64 bits, every chaining, working and message word, and every register slot. -/
abbrev Word := BitVec 64

/-- A byte of R7. -/
abbrev Byte := BitVec 8

/-- COUNTER of R5 and R29: the 128-bit byte counter, whose low word is `t0` and high word `t1`. -/
abbrev Counter := BitVec 128

/-- `ALL1` of R8. -/
abbrev allOnes64 : Word := 0xFFFFFFFFFFFFFFFF#64

end Sys2Proof
end

