-- ==== Sys2Proof/Machine/Bytes.lean ====
section
/-!
DEFINITION. Byte strings and the little-endian conversions of spec/00_scope.md rule R7 (byte order: spec/20_memory.md
rule R43). A byte string is a list of bytes.
-/

namespace Sys2Proof.Machine

/-- `zeros(n)` of R7. -/
def zeros (n : Nat) : List Byte := List.replicate n 0

/-- `pad(B, n)` of R7: `B` followed by zero bytes up to length `n`, as an array of exactly `n` bytes. -/
def padTo (n : Nat) (bs : List Byte) : Vector Byte n := Vector.ofFn fun i => bs.getD i.val 0

/-- The number whose base-256 digits are the bytes, least significant first: the sum of R7. -/
def leNat : List Byte → Nat
  | [] => 0
  | b :: bs => b.toNat + 256 * leNat bs

/-- `LE64(B, o)` of R7. -/
def le64 (bs : List Byte) (o : Nat) : Word := BitVec.ofNat 64 (leNat ((bs.drop o).take 8))

/-- `LE32(B, o)` of R7. -/
def le32 (bs : List Byte) (o : Nat) : BitVec 32 := BitVec.ofNat 32 (leNat ((bs.drop o).take 4))

/-- Byte `k` of a word: bits `[8k+7:8k]` (R7, R43). -/
def byteOf {w : Nat} (x : BitVec w) (k : Nat) : Byte := x.extractLsb' (8 * k) 8

/-- `bytes64(x)` of R7: the eight bytes, least significant first. -/
def bytes64 (x : Word) : List Byte := (List.range 8).map (byteOf x)

/-- `bytes32(x)` of R7: the four bytes, least significant first. -/
def bytes32 (x : BitVec 32) : List Byte := (List.range 4).map (byteOf x)

/-- `bytes64(x0) ‖ bytes64(x1) ‖ ...`: the bytes of an array of words, in order (R24, R86, R93). -/
def bytesOfWords {n : Nat} (ws : Vector Word n) : List Byte := ws.toList.flatMap bytes64

end Sys2Proof.Machine
end

