-- ==== Sys2Proof/Config.lean ====
section
/-!
DEFINITION. What is fixed for the machine: the sizes of spec/00_scope.md rule R5, and the one free value of the
model. The parameters B2E_BASE and MemAdmits, which R5 leaves OPEN, are plain data in `State.platform` (log 4), so
that every claim over all states is a claim for every value of them.
-/

namespace Sys2Proof

/-- `ADDR_W` of R5. -/
abbrev Config.addrW : Nat := 64

/-- The number of host-memory byte addresses, `2^ADDR_W` (R40, R41). -/
abbrev Config.memSize : Nat := 2 ^ Config.addrW

/-- The size of the register block in bytes (R14). -/
abbrev Config.blockBytes : Nat := 256

/-- The free value of R111 (U18 of spec/93): the byte that stands in an abandoned command's output range after a
reset while BUSY, drawn anew for every counter value. It has no definition, so no proof can learn what it is (log 6). -/
opaque Config.freeByte : Nat → Byte

end Sys2Proof
end

