-- ==== Sys2Proof/Machine/State.lean ====
section
/-!
DEFINITION. Every piece of state the spec gives the machine (spec/10_state.md, spec/20_memory.md rule R40), as plain
data; the moves the agents of R11 can make; and the state after reset (spec/70_reset_and_hazards.md rule R111).
-/

namespace Sys2Proof.Machine

/-- The session phase (R16, R34). -/
inductive Phase where
  | uninitialized | initialized | absorbing | finalized
  deriving DecidableEq, Repr

/-- The error codes 0 to 7 of R95, which STATUS.ERR holds; codes 8 to 15 are never written. -/
inductive ErrCode where
  | ok
  | invalidDigestLength
  | invalidKeyLength
  | invalidOutputLength
  | invalidState
  | illegalCommand
  | invalidParameter
  | busError
  deriving DecidableEq, Repr

/-- The stored registers of the register block (R14). STATUS (R16) is a view of `State.err`, the session's phase and
`State.busy`; the reserved slots (R25) and LONG_OUTLEN[63:32] (R23) have no storage. -/
structure Regs where
  /-- CMD (R15): the last accepted command word. -/
  cmd : Word
  /-- SRC_ADDR (R17). -/
  srcAddr : Word
  /-- SRC_LEN (R18). -/
  srcLen : Word
  /-- DST_ADDR (R19). -/
  dstAddr : Word
  /-- KEY_ADDR (R20). -/
  keyAddr : Word
  /-- SALT_ADDR (R21). -/
  saltAddr : Word
  /-- PERS_ADDR (R22). -/
  persAddr : Word
  /-- LONG_OUTLEN[31:0] (R23). -/
  longOutlen : BitVec 32
  /-- PARAM0 to PARAM7 (R24). -/
  param : Vector Word 8
  deriving DecidableEq, Repr

/-- The session context (R27): internal, and not host-readable but for the phase. -/
structure Session where
  /-- `h[0..7]` (R28). -/
  h : Vector Word 8
  /-- `t` (R29): `t0` is the low word, `t1` the high word. -/
  t : Counter
  /-- `f0` (R30). -/
  f0 : Word
  /-- `f1` (R30). -/
  f1 : Word
  /-- `buf[0..127]` (R31). -/
  buf : Vector Byte 128
  /-- `buflen` (R31): the number of valid leading bytes of `buf`. -/
  buflen : Nat
  /-- `outlen` (R32): the session's digest length. -/
  outlen : Nat
  /-- `last_node` (R33). -/
  lastNode : Bool
  /-- `phase` (R34). -/
  phase : Phase
  deriving DecidableEq, Repr

/-- The command latch (R35). -/
structure Latch where
  /-- LCMD. -/
  cmd : Word
  /-- LSRC. -/
  src : Word
  /-- LSRCLEN. -/
  srcLen : Word
  /-- LDST. -/
  dst : Word
  /-- LKEY. -/
  key : Word
  /-- LSALT. -/
  salt : Word
  /-- LPERS. -/
  pers : Word
  /-- LT. -/
  longLen : BitVec 32
  /-- LPB. -/
  pb : Vector Byte 64
  deriving DecidableEq, Repr

/-- Host memory (R40, R42): the bytes that differ from what an unlisted address reads as, by rising address. -/
abbrev Memory := List Host.Cell

/-- What a host-memory byte that is not listed reads as. DESIGN CHOICE (log 5), unsafe: the spec gives host memory no
contents of its own; the programs of spec/95 section 3 take unlisted bytes as `00`. -/
def Memory.unlisted : Byte := 0

/-- A run of host-memory byte addresses. -/
structure Region where
  start : Nat
  size : Nat
  deriving DecidableEq, Repr

/-- The platform parameters that R5 leaves OPEN. No step changes them (R112 item 1, host duty 6 of R113). -/
structure Platform where
  /-- `B2E_BASE`: the host physical address of the register block (R14). -/
  base : Nat
  /-- `MemAdmits` (R41): the admitted addresses are those of these regions. -/
  admitted : List Region
  deriving DecidableEq, Repr

/-- A host access (R11): to the register block, by host physical address and width in bytes (R45), or to host memory. -/
inductive Access where
  | regLoad (addr width : Nat)
  | regStore (addr width : Nat) (value : Word)
  | memLoad (addr len : Nat)
  | memStore (addr : Nat) (bytes : List Byte)
  deriving DecidableEq, Repr

/-- One move of an agent: the engine (R94), the platform's reset signal (R111), or a host access. -/
inductive Move where
  | engine
  | reset
  | host (a : Access)
  deriving DecidableEq, Repr

/-- What a host load returned: a register value or a string of memory bytes. -/
inductive Response where
  | reg (value : Word)
  | mem (bytes : List Byte)
  deriving DecidableEq, Repr

/-- The state of the machine. The last four fields are the model's own (logs 1, 6, 9, 11). -/
structure State where
  /-- The register block's stored registers (R14). -/
  regs : Regs
  /-- STATUS.BUSY (R16). -/
  busy : Bool
  /-- STATUS.ERR (R16, R95). -/
  err : ErrCode
  /-- The session context (R27). -/
  ctx : Session
  /-- The command latch (R35). -/
  latch : Latch
  /-- Host memory (R40). -/
  mem : Memory
  /-- The platform parameters (R5). -/
  platform : Platform
  /-- Reset has been applied since power-up (R112 item 2). -/
  resetDone : Bool
  /-- The moves still to come, in order; when none is left the engine moves (log 1). -/
  schedule : List Move
  /-- What the host's last load returned, if there was one (log 11). -/
  response : Option Response
  /-- How many free bytes have been drawn (log 6). -/
  freeCtr : Nat
  deriving DecidableEq, Repr

/-- Why the machine has no step. Host and engine moves raise these; no command's meaning does. -/
inductive Fault where
  /-- A host access or an engine move before the first reset since power-up: "a model has no step" (R112 item 2, U19 of
  spec/93). Raised by `runMove` and `engineMove`. Safe: the machine stops. -/
  | beforeFirstReset
  /-- A host memory access at an address at or above 2^64, which does not exist (R40). Raised by `hostAccess`. Safe. -/
  | outsideHostMemory
  deriving DecidableEq, Repr

/-- What the model gives no meaning. -/
inductive Refusal where
  /-- A command without a meaning; raised by a refused arm of `exec` only, and there is none. Safe. -/
  | notModelled (mnemonic : String)
  /-- A register access that is not an aligned 8-byte access: host duty 1 (R45, R113; U9 of spec/93 "refuse"). Raised by
  `hostAccess`. Safe. -/
  | registerAccessForm
  /-- A host access to a running command's ranges: host duty 2 (R50, R113; U10 of spec/93 "refuse"). Raised by
  `hostAccess`. Safe. -/
  | busyRange
  /-- A register access at a host physical address outside the register block, where this spec has no device (R107).
  Raised by `hostAccess`. Safe. -/
  | notRegisterBlock
  deriving DecidableEq, Repr

/-- The session after reset (R111). DESIGN CHOICE (log 2), unsafe: `h`, `t`, `f0`, `f1` and `buf` have no value in the
spec and are zero here. -/
def Session.reset : Session where
  h := Vector.replicate 8 0
  t := 0
  f0 := 0
  f1 := 0
  buf := Vector.replicate 128 0
  buflen := 0
  outlen := 0
  lastNode := false
  phase := .uninitialized

/-- The registers after reset (R111): every one is 0. -/
def Regs.reset : Regs where
  cmd := 0
  srcAddr := 0
  srcLen := 0
  dstAddr := 0
  keyAddr := 0
  saltAddr := 0
  persAddr := 0
  longOutlen := 0
  param := Vector.replicate 8 0

/-- The command latch after reset. DESIGN CHOICE (log 3), unsafe: R111 gives it no value; zero here. -/
def Latch.reset : Latch where
  cmd := 0
  src := 0
  srcLen := 0
  dst := 0
  key := 0
  salt := 0
  pers := 0
  longLen := 0
  pb := Vector.replicate 64 0

/-- The machine right after its first reset, on a given platform (R111). -/
def State.resetOn (p : Platform) : State where
  regs := Regs.reset
  busy := false
  err := .ok
  ctx := Session.reset
  latch := Latch.reset
  mem := []
  platform := p
  resetDone := true
  schedule := []
  response := none
  freeCtr := 0

/-- The platform of `State.reset`. DESIGN CHOICE (log 4), unsafe for a claim about `State.reset` alone: the spec leaves
both parameters OPEN; here the register block is at 0 and every host-memory byte is admitted. -/
def Platform.default : Platform where
  base := 0
  admitted := [⟨0, Config.memSize⟩]

/-- The machine right after reset (R111). -/
def State.reset : State := State.resetOn Platform.default

end Sys2Proof.Machine
end

