-- ==== Sys2Proof/Machine/Ops.lean ====
section
/-!
DEFINITION. The named operations over memory and registers: host memory (spec/20_memory.md rules R41, R42), the register
block (spec/10_state.md rules R14 to R25), command acceptance, error and completion (spec/60_exceptions.md rules R93,
R94, R97). There is no trap: an error is reported by status alone (R98, R101), so `raise` is the machine's whole
exception entry, and there is no return from it (R102).
-/

namespace Sys2Proof.Machine

/-! ### Host memory -/

/-- The byte at an address (`M[a]` of R42). -/
def Memory.read : Memory → Nat → Byte
  | [], _ => Memory.unlisted
  | (k, b) :: m, a => if a = k then b else Memory.read m a

/-- `M[a] <- v` (R42), keeping the canonical form: writing what an unlisted byte reads as removes the entry. -/
def Memory.write : Memory → Nat → Byte → Memory
  | [], a, v => if v = Memory.unlisted then [] else [(a, v)]
  | (k, b) :: m, a, v =>
    if a < k then (if v = Memory.unlisted then (k, b) :: m else (a, v) :: (k, b) :: m)
    else if a = k then (if v = Memory.unlisted then m else (a, v) :: m)
    else (k, b) :: Memory.write m a v

/-- The canonical form: addresses strictly rising, and no entry equal to what an unlisted address reads as. -/
abbrev Memory.wf (m : Memory) : Prop :=
  m.Pairwise (fun x y => x.1 < y.1) ∧ ∀ c ∈ m, c.2 ≠ Memory.unlisted

/-- Only addresses of host memory are listed (R40: 0 to 2^64-1). -/
abbrev Memory.inSpace (m : Memory) : Prop := ∀ c ∈ m, c.1 < Config.memSize

/-- `MemRead(a, n)` of R42. -/
def Memory.readBytes (m : Memory) (a n : Nat) : List Byte := (List.range n).map fun i => m.read (a + i)

/-- `MemWrite(a, n, B)` of R42, with `n = len(B)`: bytes are written upward (R49 item 4). -/
def Memory.writeBytes : Memory → Nat → List Byte → Memory
  | m, _, [] => m
  | m, a, b :: bs => Memory.writeBytes (m.write a b) (a + 1) bs

/-- The address is in the region. -/
def Region.holds (r : Region) (a : Nat) : Bool := decide (r.start ≤ a) && decide (a < r.start + r.size)

/-- `MemAdmits(a)` of R5 and R41. -/
def Platform.memAdmits (p : Platform) (a : Nat) : Bool := p.admitted.any (·.holds a)

/-- A host-memory range: `len` bytes from `addr` upward. -/
structure Range where
  addr : Nat
  len : Nat
  deriving DecidableEq, Repr

/-- The range is admitted (R41). -/
def Platform.admits (p : Platform) (r : Range) : Bool :=
  r.len == 0 ||
    (decide (r.addr + r.len ≤ Config.memSize) && (List.range r.len).all fun i => p.memAdmits (r.addr + i))

/-- Every range of a list is admitted (R96, group 4). -/
def Platform.admitsAll (p : Platform) (rs : List Range) : Bool := rs.all p.admits

/-- Two ranges share a byte. -/
def Range.overlaps (r q : Range) : Bool :=
  decide (0 < r.len) && decide (0 < q.len) && decide (r.addr < q.addr + q.len) && decide (q.addr < r.addr + r.len)

/-! ### The register block -/

/-- The registers of the block by name (R14); every other slot is reserved (R25). -/
inductive Reg where
  | cmd | status | srcAddr | srcLen | dstAddr | keyAddr | saltAddr | persAddr | longOutlen
  | param (j : Fin 8)
  deriving DecidableEq, Repr

/-- The offset of a register (R14). -/
def Reg.offset : Reg → Nat
  | .cmd => 0x00
  | .status => 0x08
  | .srcAddr => 0x10
  | .srcLen => 0x18
  | .dstAddr => 0x20
  | .keyAddr => 0x28
  | .saltAddr => 0x30
  | .persAddr => 0x38
  | .longOutlen => 0x40
  | .param j => 0x80 + 8 * j.val

/-- The register in the slot of index `k`, offset `8k` (R14); a reserved slot has none (R25). -/
def Reg.ofSlot (k : Nat) : Option Reg :=
  match k with
  | 0 => some .cmd
  | 1 => some .status
  | 2 => some .srcAddr
  | 3 => some .srcLen
  | 4 => some .dstAddr
  | 5 => some .keyAddr
  | 6 => some .saltAddr
  | 7 => some .persAddr
  | 8 => some .longOutlen
  | _ => if h : 16 ≤ k ∧ k < 24 then some (.param ⟨k - 16, by omega⟩) else none

/-- The copies a command keeps (R35): the latch after a CMD write of `w` (R93). -/
def Regs.latch (r : Regs) (w : Word) : Latch where
  cmd := w
  src := r.srcAddr
  srcLen := r.srcLen
  dst := r.dstAddr
  key := r.keyAddr
  salt := r.saltAddr
  pers := r.persAddr
  longLen := r.longOutlen
  pb := padTo 64 (bytesOfWords r.param)

/-- Acceptance of the command word `w` (R93): one indivisible step, for every value of `w`. -/
def State.accept (s : State) (w : Word) : State :=
  { s with latch := s.regs.latch w, regs := { s.regs with cmd := w }, err := .ok, busy := true }

/-- `raise E` (R97): the command ends with error `e`, and nothing else changes. -/
def State.raise (s : State) (e : ErrCode) : State := { s with err := e, busy := false }

/-- The success of a command (R94): ERR is OK and BUSY is 0. -/
def State.complete (s : State) : State := { s with err := .ok, busy := false }

/-- The end of a command whose check gave `e` (R94): the error, or `t`, the state its execution leaves. -/
def State.conclude (s : State) (e : ErrCode) (t : State) : Host.Outcome State Fault Refusal :=
  if e = .ok then .next t.complete else .next (s.raise e)

end Sys2Proof.Machine
end

