-- ==== Sys2Proof/Machine/Flags.lean ====
section
/-!
DEFINITION. The flags: the status word (spec/10_state.md rule R16, codes of spec/60_exceptions.md rule R95) and the
finalization flags (R26, R30; spec/42_streaming.md rule R86). There are no arithmetic condition codes (R26).
-/

namespace Sys2Proof.Machine

/-- The value of STATUS.PHASE (R16). -/
def Phase.code : Phase → BitVec 2
  | .uninitialized => 0
  | .initialized => 1
  | .absorbing => 2
  | .finalized => 3

/-- The value of STATUS.ERR (R95). -/
def ErrCode.code : ErrCode → BitVec 4
  | .ok => 0
  | .invalidDigestLength => 1
  | .invalidKeyLength => 2
  | .invalidOutputLength => 3
  | .invalidState => 4
  | .illegalCommand => 5
  | .invalidParameter => 6
  | .busError => 7

/-- STATUS (R16): BUSY [0], PHASE [2:1], ERR [6:3], and [63:7] read as zero. -/
def State.status (s : State) : Word :=
  (BitVec.ofBool s.busy).setWidth 64 ||| (s.ctx.phase.code.setWidth 64 <<< 1) ||| (s.err.code.setWidth 64 <<< 3)

/-- `f0` of a final compression (R86). -/
def finalF0 : Word := allOnes64

/-- `f1` of a final compression (R86, value by decision D35). -/
def finalF1 (lastNode : Bool) : Word := if lastNode then allOnes64 else 0

/-! ### Reading and writing the register block -/

/-- The value of a register (R14 to R24). LONG_OUTLEN[63:32] reads as 0 (R23). -/
def State.readReg (s : State) : Reg → Word
  | .cmd => s.regs.cmd
  | .status => s.status
  | .srcAddr => s.regs.srcAddr
  | .srcLen => s.regs.srcLen
  | .dstAddr => s.regs.dstAddr
  | .keyAddr => s.regs.keyAddr
  | .saltAddr => s.regs.saltAddr
  | .persAddr => s.regs.persAddr
  | .longOutlen => s.regs.longOutlen.setWidth 64
  | .param j => s.regs.param[j]

/-- A host write of `v` to a register (R14 to R24). A CMD write is accepted while BUSY is 0 and ignored while it is 1
(R15, R93); a STATUS write is ignored (R16); a write to LONG_OUTLEN[63:32] is ignored (R23). -/
def State.writeReg (s : State) (r : Reg) (v : Word) : State :=
  match r with
  | .cmd => if s.busy then s else s.accept v
  | .status => s
  | .srcAddr => { s with regs := { s.regs with srcAddr := v } }
  | .srcLen => { s with regs := { s.regs with srcLen := v } }
  | .dstAddr => { s with regs := { s.regs with dstAddr := v } }
  | .keyAddr => { s with regs := { s.regs with keyAddr := v } }
  | .saltAddr => { s with regs := { s.regs with saltAddr := v } }
  | .persAddr => { s with regs := { s.regs with persAddr := v } }
  | .longOutlen => { s with regs := { s.regs with longOutlen := v.setWidth 32 } }
  | .param j => { s with regs := { s.regs with param := s.regs.param.set j v } }

/-- A read of the slot of index `k`: a reserved slot reads as zero (R25). -/
def State.readSlot (s : State) (k : Nat) : Word :=
  match Reg.ofSlot k with
  | some r => s.readReg r
  | none => 0

/-- A write to the slot of index `k`: a write to a reserved slot is ignored (R25). -/
def State.writeSlot (s : State) (k : Nat) (v : Word) : State :=
  match Reg.ofSlot k with
  | some r => s.writeReg r v
  | none => s

end Sys2Proof.Machine
end

