-- ==== Sys2Proof/Machine/Compress.lean ====
section
/-!
DEFINITION. The compression function F (spec/41_compression.md rules R71 to R78) and the rotation of spec/00_scope.md
rule R8. The working vector and the message words exist only inside F (R36).
-/

namespace Sys2Proof.Machine

/-- `rotr64(x, n)` of R8, for `0 < n < 64`. -/
def rotr64 (x : Word) (n : Nat) : Word := (x >>> n) ||| (x <<< (64 - n))

/-- The initialization vector (R71). -/
def iv : Vector Word 8 :=
  #v[0x6a09e667f3bcc908, 0xbb67ae8584caa73b, 0x3c6ef372fe94f82b, 0xa54ff53a5f1d36f1,
     0x510e527fade682d1, 0x9b05688c2b3e6c1f, 0x1f83d9abfb41bd6b, 0x5be0cd19137e2179]

/-- The message schedule, one row per round (R72). -/
def sigma : Vector (Vector (Fin 16) 16) 12 :=
  #v[#v[ 0,  1,  2,  3,  4,  5,  6,  7,  8,  9, 10, 11, 12, 13, 14, 15],
     #v[14, 10,  4,  8,  9, 15, 13,  6,  1, 12,  0,  2, 11,  7,  5,  3],
     #v[11,  8, 12,  0,  5,  2, 15, 13, 10, 14,  3,  6,  7,  1,  9,  4],
     #v[ 7,  9,  3,  1, 13, 12, 11, 14,  2,  6,  5, 10,  4,  0, 15,  8],
     #v[ 9,  0,  5,  7,  2,  4, 10, 15, 14,  1, 11, 12,  6,  8,  3, 13],
     #v[ 2, 12,  6, 10,  0, 11,  8,  3,  4, 13,  7,  5, 15, 14,  1,  9],
     #v[12,  5,  1, 15, 14, 13,  4, 10,  0,  7,  6,  3,  9,  2,  8, 11],
     #v[13, 11,  7, 14, 12,  1,  3,  9,  5,  0, 15,  4,  8,  6,  2, 10],
     #v[ 6, 15, 14,  9, 11,  3,  0,  8, 12,  2, 13,  7,  1,  4, 10,  5],
     #v[10,  2,  8,  4,  7,  6,  1,  5, 15, 11,  9, 14,  3, 12, 13,  0],
     #v[ 0,  1,  2,  3,  4,  5,  6,  7,  8,  9, 10, 11, 12, 13, 14, 15],
     #v[14, 10,  4,  8,  9, 15, 13,  6,  1, 12,  0,  2, 11,  7,  5,  3]]

/-- The four working words a G application takes and returns (R73). -/
structure Quad where
  a : Word
  b : Word
  c : Word
  d : Word
  deriving DecidableEq, Repr

/-- The mixing function G (R73), its eight steps in the rule's order. -/
def mixG (a b c d x y : Word) : Quad :=
  let a := a + b + x
  let d := rotr64 (d ^^^ a) 32
  let c := c + d
  let b := rotr64 (b ^^^ c) 24
  let a := a + b + y
  let d := rotr64 (d ^^^ a) 16
  let c := c + d
  let b := rotr64 (b ^^^ c) 63
  ⟨a, b, c, d⟩

/-- The indices of the working words one G application mixes (R74). -/
structure QuadIndex where
  a : Fin 16
  b : Fin 16
  c : Fin 16
  d : Fin 16
  deriving DecidableEq, Repr

/-- The eight G applications of a round, columns then diagonals (R74). -/
def quadIndices : Vector QuadIndex 8 :=
  #v[⟨0, 4,  8, 12⟩, ⟨1, 5,  9, 13⟩, ⟨2, 6, 10, 14⟩, ⟨3, 7, 11, 15⟩,
     ⟨0, 5, 10, 15⟩, ⟨1, 6, 11, 12⟩, ⟨2, 7,  8, 13⟩, ⟨3, 4,  9, 14⟩]

/-- One G application on the working vector (R74). -/
def applyG (v : Vector Word 16) (q : QuadIndex) (x y : Word) : Vector Word 16 :=
  let g := mixG v[q.a] v[q.b] v[q.c] v[q.d] x y
  (((v.set q.a g.a).set q.b g.b).set q.c g.c).set q.d g.d

/-- Round `r` (R74): application `i` takes message words `m[SIGMA[r][2i]]` and `m[SIGMA[r][2i+1]]`. -/
def compressRound (m : Vector Word 16) (v : Vector Word 16) (r : Fin 12) : Vector Word 16 :=
  (List.finRange 8).foldl
    (fun v (i : Fin 8) => applyG v quadIndices[i] m[sigma[r][2 * i.val]] m[sigma[r][2 * i.val + 1]]) v

/-- The twelve rounds (R77). -/
def compressRounds (m : Vector Word 16) (v : Vector Word 16) : Vector Word 16 :=
  (List.finRange 12).foldl (compressRound m) v

/-- The block as sixteen message words (R75). -/
def messageWords (block : Vector Byte 128) : Vector Word 16 :=
  Vector.ofFn fun i => le64 block.toList (8 * i.val)

/-- `t0` and `t1` of the counter (R29). -/
def counterLow (t : Counter) : Word := t.extractLsb' 0 64
@[inherit_doc counterLow] def counterHigh (t : Counter) : Word := t.extractLsb' 64 64

/-- The working vector before the first round (R76). -/
def workingVector (h : Vector Word 8) (t : Counter) (f0 f1 : Word) : Vector Word 16 :=
  #v[h[0], h[1], h[2], h[3], h[4], h[5], h[6], h[7],
     iv[0], iv[1], iv[2], iv[3],
     iv[4] ^^^ counterLow t, iv[5] ^^^ counterHigh t, iv[6] ^^^ f0, iv[7] ^^^ f1]

/-- The output fold (R78). -/
def foldOutput (h : Vector Word 8) (v : Vector Word 16) : Vector Word 8 :=
  Vector.ofFn fun i => h[i] ^^^ v[i.val] ^^^ v[i.val + 8]

/-- The compression function F (R77). -/
def compress (h : Vector Word 8) (block : Vector Byte 128) (t : Counter) (f0 f1 : Word) : Vector Word 8 :=
  foldOutput h (compressRounds (messageWords block) (workingVector h t f0 f1))

end Sys2Proof.Machine
end

