-- ==== Sys2Proof/Machine/ParamBlock.lean ====
section
/-!
DEFINITION. The parameter block codec (spec/40_param_codec.md rules R65 to R69). A parameter block is a string of 64
bytes; `ParamBlock` is its view by field.
-/

namespace Sys2Proof.Machine

/-- The fields of a parameter block, in order (R65). -/
structure ParamBlock where
  digestLength : Byte
  keyLength : Byte
  fanout : Byte
  depth : Byte
  leafLength : BitVec 32
  nodeOffset : BitVec 64
  nodeDepth : Byte
  innerLength : Byte
  reserved : Vector Byte 14
  salt : Vector Byte 16
  personal : Vector Byte 16
  deriving DecidableEq, Repr

/-- The 64 bytes of a parameter block: its fields in order, packed (R65). -/
def ParamBlock.toBytes (p : ParamBlock) : List Byte :=
  [p.digestLength] ++ [p.keyLength] ++ [p.fanout] ++ [p.depth] ++ bytes32 p.leafLength ++ bytes64 p.nodeOffset
    ++ [p.nodeDepth] ++ [p.innerLength] ++ p.reserved.toList ++ p.salt.toList ++ p.personal.toList

/-- The fields of a 64-byte string, at the offsets of the table of R65. -/
def ParamBlock.ofBytes (bs : List Byte) : ParamBlock where
  digestLength := bs.getD 0 0
  keyLength := bs.getD 1 0
  fanout := bs.getD 2 0
  depth := bs.getD 3 0
  leafLength := le32 bs 4
  nodeOffset := le64 bs 8
  nodeDepth := bs.getD 16 0
  innerLength := bs.getD 17 0
  reserved := padTo 14 (bs.drop 18)
  salt := padTo 16 (bs.drop 32)
  personal := padTo 16 (bs.drop 48)

/-- `PBenc` (R66): the sequential-mode block. -/
def encodeParams (outlen keylen : Nat) (salt pers : List Byte) : List Byte :=
  ParamBlock.toBytes
    { digestLength := BitVec.ofNat 8 outlen
      keyLength := BitVec.ofNat 8 keylen
      fanout := 1
      depth := 1
      leafLength := 0
      nodeOffset := 0
      nodeDepth := 0
      innerLength := 0
      reserved := padTo 14 []
      salt := padTo 16 salt
      personal := padTo 16 pers }

/-- `PBcheck` (R68): the first error that applies to a block taken from PARAM0 to PARAM7, or `ok`. -/
def checkParams (pb : List Byte) : ErrCode :=
  if pb.getD 0 0 = 0 ∨ 64 < (pb.getD 0 0).toNat then .invalidDigestLength
  else if 64 < (pb.getD 1 0).toNat then .invalidKeyLength
  else if (pb.drop 18).take 14 ≠ zeros 14 then .invalidParameter
  else .ok

/-- The chaining state seeded from a parameter block (R69). -/
def seedChain (pb : List Byte) : Vector Word 8 := Vector.ofFn fun i => iv[i] ^^^ le64 pb (8 * i.val)

end Sys2Proof.Machine
end

