-- ==== Sys2Proof/Machine/Session.lean ====
section
/-!
DEFINITION. The operations on the session context that the commands are made of: the counter (spec/42_streaming.md rule
R81), `CtxInit` (R82), the key block (R83), `Absorb` (R85), `Finish` (R86), and the chain of hashes of HASH_LONG
(spec/44_long.md rules R89 to R91).
-/

namespace Sys2Proof.Machine

/-- The counter advance of R81: `t + n` modulo 2^128. -/
def advance (t : Counter) (n : Nat) : Counter := t + BitVec.ofNat 128 n

/-- `CtxInit(PB, ln)` (R82). It writes the whole session context. -/
def ctxInit (pb : List Byte) (ln : Bool) : Session where
  h := seedChain pb
  t := 0
  f0 := 0
  f1 := 0
  buf := Vector.replicate 128 0
  buflen := 0
  outlen := (pb.getD 0 0).toNat
  lastNode := ln
  phase := .initialized

/-- The key block of INIT and HASH (R83, R88): a key of one byte or more becomes a full buffer, not yet compressed. -/
def Session.loadKey (c : Session) (key : List Byte) : Session :=
  if 0 < key.length then { c with buf := padTo 128 key, buflen := 128 } else c

/-- The compression of a full buffer inside UPDATE (R85): the counter advances by 128 and both flags are 0. -/
def Session.flush (c : Session) : Session :=
  let t := advance c.t 128
  { c with t := t, h := compress c.h c.buf t 0 0, buflen := 0 }

/-- One byte put into the buffer (R85). -/
def Session.push (c : Session) (b : Byte) : Session :=
  { c with buf := c.buf.setIfInBounds c.buflen b, buflen := c.buflen + 1 }

/-- One turn of the loop of R85: a full buffer is compressed only when another byte follows. -/
def Session.absorbByte (c : Session) (b : Byte) : Session :=
  if c.buflen = 128 then c.flush.push b else c.push b

/-- `Absorb(X)` (R85): the loop over the bytes of the input. -/
def Session.absorb (c : Session) (bytes : List Byte) : Session := bytes.foldl Session.absorbByte c

/-- The buffer with its bytes from `buflen` to 127 set to zero (R86). -/
def Session.paddedBuf (c : Session) : Vector Byte 128 :=
  Vector.ofFn fun i => if i.val < c.buflen then c.buf[i] else 0

/-- `Finish()` (R86): the final compression. -/
def Session.finish (c : Session) : Session :=
  let t := advance c.t c.buflen
  let buf := c.paddedBuf
  { c with
    t := t
    f0 := finalF0
    f1 := finalF1 c.lastNode
    buf := buf
    h := compress c.h buf t finalF0 (finalF1 c.lastNode) }

/-- `Dg` (R86): the 64 bytes of the chaining state, in order. -/
def Session.digest (c : Session) : List Byte := bytesOfWords c.h

/-- A phase change (R80). -/
def Session.enter (c : Session) (p : Phase) : Session := { c with phase := p }

/-- The session of an INIT (R83): the parameter block, then the key block. -/
def startSession (outlen : Nat) (key salt pers : List Byte) : Session :=
  (ctxInit (encodeParams outlen key.length salt pers) false).loadKey key

/-- The session a one-shot hash leaves before its phase change (R88, R89). -/
def oneShot (outlen : Nat) (key salt pers message : List Byte) : Session :=
  ((startSession outlen key salt pers).absorb message).finish

/-- The session of `H(n, X)` (R89). -/
def hashSession (n : Nat) (x : List Byte) : Session := oneShot n [] [] [] x

/-- `H(n, X)` (R89). -/
def hashH (n : Nat) (x : List Byte) : List Byte := (hashSession n x).digest.take n

/-- The loop and the last step of R90, with `v` the last 64-byte value, `out` the output so far and `rem` the number of
bytes still to come. The loop runs while more than 64 bytes remain (R91). `fuel` bounds the number of turns: every turn
takes 32 from `rem`, so `fuel = rem` never runs out. The last inner hash's session is returned with the output. -/
def longLoop : (fuel : Nat) → (v out : List Byte) → (rem : Nat) → Session × List Byte
  | 0, v, out, rem => (hashSession rem v, out ++ hashH rem v)
  | fuel + 1, v, out, rem =>
    if 64 < rem then
      let v' := hashH 64 v
      longLoop fuel v' (out ++ v'.take 32) (rem - 32)
    else (hashSession rem v, out ++ hashH rem v)

/-- The last inner hash's session and `OUT` of HASH_LONG (R90). -/
def hashLongOutput (len : BitVec 32) (x : List Byte) : Session × List Byte :=
  let p := bytes32 len ++ x
  let total := len.toNat
  if total ≤ 64 then (hashSession total p, hashH total p)
  else
    let v := hashH 64 p
    longLoop total v (v.take 32) (total - 32)

end Sys2Proof.Machine
end

