-- ==== Sys2Proof/Syntax.lean ====
section
/-!
DEFINITION. The six commands (spec/30_encoding.md rules R56, R58, R59; spec/opcode_table.json), one constructor per row.
A constructor carries exactly the fields its row leaves free, each at the width of R56; every other operand comes from
the command latch (R57).
-/

namespace Sys2Proof

/-- A command of B2E. -/
inductive Instr where
  /-- INIT (R83): start a sequential-mode session. -/
  | init (outlen keylen : BitVec 7) (saltlen perslen : BitVec 5)
  /-- INIT_PARAMS (R84): start a session from the parameter block of PARAM0 to PARAM7; `ln` is the field LN. -/
  | initParams (ln : Bool)
  /-- UPDATE (R85): absorb message bytes. -/
  | update
  /-- FINAL (R86): compress the last block and write the digest. -/
  | final (outlen : BitVec 7)
  /-- HASH (R88): the digest of one message in one command. -/
  | hash (outlen keylen : BitVec 7) (saltlen perslen : BitVec 5)
  /-- HASH_LONG (R90): an output of LONG_OUTLEN bytes. -/
  | hashLong
  deriving DecidableEq, Repr

end Sys2Proof
end

