-- ==== Sys2Proof/WellFormed.lean ====
section
/-!
DEFINITION. Which terms of `Instr` are commands. OUTLEN and KEYLEN may hold any value of their seven bits: an
out-of-range value is legal as an encoding and raises an error of its own (spec/30_encoding.md rule R57). SALTLEN and
PERSLEN above 16 are reserved encodings (rule R61 item 4).
-/

namespace Sys2Proof

/-- R61 item 4: a salt length the encoding admits. -/
def saltlenLegal (saltlen : BitVec 5) : Bool := decide (saltlen.toNat ≤ 16)

/-- R61 item 4: a personalization length the encoding admits. -/
def perslenLegal (perslen : BitVec 5) : Bool := decide (perslen.toNat ≤ 16)

/-- The term is a command: some command word encodes it (R61). -/
def Instr.wellFormed : Instr → Bool
  | .init _ _ saltlen perslen => saltlenLegal saltlen && perslenLegal perslen
  | .initParams _ => true
  | .update => true
  | .final _ => true
  | .hash _ _ saltlen perslen => saltlenLegal saltlen && perslenLegal perslen
  | .hashLong => true

end Sys2Proof
end

