-- ==== Sys2Proof/Machine/Operands.lean ====
section
/-!
DEFINITION. Every operand form (spec/30_encoding.md rule R57): operands in host memory, read through the command latch
(spec/10_state.md rule R35) at base plus a rising byte offset, the one addressing mode (spec/20_memory.md rule R42); and
the ranges each command reads and writes (spec/60_exceptions.md rule R96). Operands need no alignment (R44).
-/

namespace Sys2Proof.Machine

/-- The key: `MemRead(LKEY, k)` (R83, R88). -/
def State.keyBytes (s : State) (keylen : BitVec 7) : List Byte := s.mem.readBytes s.latch.key.toNat keylen.toNat

/-- The salt: `MemRead(LSALT, s)` (R83, R88). -/
def State.saltBytes (s : State) (saltlen : BitVec 5) : List Byte :=
  s.mem.readBytes s.latch.salt.toNat saltlen.toNat

/-- The personalization: `MemRead(LPERS, p)` (R83, R88). -/
def State.persBytes (s : State) (perslen : BitVec 5) : List Byte :=
  s.mem.readBytes s.latch.pers.toNat perslen.toNat

/-- The message: `MemRead(LSRC, LSRCLEN)` (R85, R88, R90). -/
def State.messageBytes (s : State) : List Byte := s.mem.readBytes s.latch.src.toNat s.latch.srcLen.toNat

/-- The ranges a command reads (R96). -/
def State.readRanges (s : State) : Instr → List Range
  | .init _ keylen saltlen perslen =>
    [⟨s.latch.key.toNat, keylen.toNat⟩, ⟨s.latch.salt.toNat, saltlen.toNat⟩, ⟨s.latch.pers.toNat, perslen.toNat⟩]
  | .initParams _ => []
  | .update => [⟨s.latch.src.toNat, s.latch.srcLen.toNat⟩]
  | .final _ => []
  | .hash _ keylen saltlen perslen =>
    [⟨s.latch.key.toNat, keylen.toNat⟩, ⟨s.latch.salt.toNat, saltlen.toNat⟩, ⟨s.latch.pers.toNat, perslen.toNat⟩,
     ⟨s.latch.src.toNat, s.latch.srcLen.toNat⟩]
  | .hashLong => [⟨s.latch.src.toNat, s.latch.srcLen.toNat⟩]

/-- The ranges a command writes (R96): the output range of R111. -/
def State.writeRanges (s : State) : Instr → List Range
  | .init _ _ _ _ => []
  | .initParams _ => []
  | .update => []
  | .final _ => [⟨s.latch.dst.toNat, s.ctx.outlen⟩]
  | .hash outlen _ _ _ => [⟨s.latch.dst.toNat, outlen.toNat⟩]
  | .hashLong => [⟨s.latch.dst.toNat, s.latch.longLen.toNat⟩]

/-- `Ranges(w)` (R96). -/
def State.ranges (s : State) (i : Instr) : List Range := s.readRanges i ++ s.writeRanges i

/-- The output of a command written at `LDST` (R86, R88, R90). -/
def State.storeOutput (s : State) (bytes : List Byte) : Memory := s.mem.writeBytes s.latch.dst.toNat bytes

end Sys2Proof.Machine
end

