-- ==== Sys2Proof/Machine/Check.lean ====
section
/-!
DEFINITION. `Check(LCMD)` (spec/60_exceptions.md rule R96): the tests of a command in the rule's order, encoding, phase,
values, memory ranges. The first test of group 1 (a word that matches no row) is the decoder's; a command that reaches
`check` has passed it.
-/

namespace Sys2Proof.Machine

/-- The first error that applies, or `ok` (R96). -/
def firstError : List (Bool × ErrCode) → ErrCode
  | [] => .ok
  | (applies, e) :: rest => if applies then e else firstError rest

/-- R96 group 1, second test. -/
def badLengths (saltlen perslen : BitVec 5) : Bool := !(saltlenLegal saltlen && perslenLegal perslen)

/-- R96 group 3, the OUTLEN test of INIT and HASH. -/
def badOutlen (outlen : BitVec 7) : Bool := outlen == 0 || decide (64 < outlen.toNat)

/-- R96 group 3, the KEYLEN test of INIT and HASH. -/
def badKeylen (keylen : BitVec 7) : Bool := decide (64 < keylen.toNat)

/-- R96 group 2: UPDATE and FINAL need an open session. -/
def Phase.closed : Phase → Bool
  | .uninitialized => true
  | .initialized => false
  | .absorbing => false
  | .finalized => true

/-- R96 group 4 for a command's ranges. -/
def State.rangeFault (s : State) (i : Instr) : Bool := !(s.platform.admitsAll (s.ranges i))

/-- The check of INIT (R96). -/
def State.checkInit (s : State) (outlen keylen : BitVec 7) (saltlen perslen : BitVec 5) : ErrCode :=
  firstError
    [(badLengths saltlen perslen, .illegalCommand), (badOutlen outlen, .invalidOutputLength),
     (badKeylen keylen, .invalidKeyLength), (s.rangeFault (.init outlen keylen saltlen perslen), .busError)]

/-- The check of INIT_PARAMS (R96, R68). -/
def State.checkInitParams (s : State) : ErrCode := checkParams s.latch.pb.toList

/-- The check of UPDATE (R96). -/
def State.checkUpdate (s : State) : ErrCode :=
  firstError [(s.ctx.phase.closed, .invalidState), (s.rangeFault .update, .busError)]

/-- The check of FINAL (R96). -/
def State.checkFinal (s : State) (outlen : BitVec 7) : ErrCode :=
  firstError
    [(s.ctx.phase.closed, .invalidState), (decide (outlen.toNat ≠ s.ctx.outlen), .invalidOutputLength),
     (s.rangeFault (.final outlen), .busError)]

/-- The check of HASH (R96). -/
def State.checkHash (s : State) (outlen keylen : BitVec 7) (saltlen perslen : BitVec 5) : ErrCode :=
  firstError
    [(badLengths saltlen perslen, .illegalCommand), (badOutlen outlen, .invalidOutputLength),
     (badKeylen keylen, .invalidKeyLength), (s.rangeFault (.hash outlen keylen saltlen perslen), .busError)]

/-- The check of HASH_LONG (R96). -/
def State.checkHashLong (s : State) : ErrCode :=
  firstError [(s.latch.longLen == 0, .invalidOutputLength), (s.rangeFault .hashLong, .busError)]

/-- `Check` of a decoded command (R96). -/
def State.check (s : State) : Instr → ErrCode
  | .init outlen keylen saltlen perslen => s.checkInit outlen keylen saltlen perslen
  | .initParams _ => s.checkInitParams
  | .update => s.checkUpdate
  | .final outlen => s.checkFinal outlen
  | .hash outlen keylen saltlen perslen => s.checkHash outlen keylen saltlen perslen
  | .hashLong => s.checkHashLong

end Sys2Proof.Machine
end

