-- ==== Sys2Proof/Machine/Extended.lean ====
section
/-!
DEFINITION. The meaning of HASH_LONG (spec/44_long.md).
-/

namespace Sys2Proof.Machine

/-- HASH_LONG (R90): `LT` bytes of output, written after all of the input has been read. -/
def execHashLong (s : State) : Host.Outcome State Fault Refusal :=
  s.conclude s.checkHashLong
    { s with
      ctx := (hashLongOutput s.latch.longLen s.messageBytes).1.enter .finalized
      mem := s.storeOutput (hashLongOutput s.latch.longLen s.messageBytes).2 }

end Sys2Proof.Machine
end

