-- ==== Sys2Proof/Machine/OneShot.lean ====
section
/-!
DEFINITION. The meaning of HASH (spec/43_oneshot.md).
-/

namespace Sys2Proof.Machine

/-- The session HASH leaves but for its phase, from the operands in memory as they stood at acceptance (R88, R51). -/
def State.hashOperands (s : State) (outlen keylen : BitVec 7) (saltlen perslen : BitVec 5) : Session :=
  oneShot outlen.toNat (s.keyBytes keylen) (s.saltBytes saltlen) (s.persBytes perslen) s.messageBytes

/-- HASH (R88): every input byte is read before the first output byte is written (R51). -/
def execHash (outlen keylen : BitVec 7) (saltlen perslen : BitVec 5) (s : State) : Host.Outcome State Fault Refusal :=
  s.conclude (s.checkHash outlen keylen saltlen perslen)
    { s with
      ctx := (s.hashOperands outlen keylen saltlen perslen).enter .finalized
      mem := s.storeOutput ((s.hashOperands outlen keylen saltlen perslen).digest.take outlen.toNat) }

end Sys2Proof.Machine
end

