-- ==== Sys2Proof/Machine/Streaming.lean ====
section
/-!
DEFINITION. The meanings of INIT, INIT_PARAMS, UPDATE and FINAL (spec/42_streaming.md). Each is the completion step of
spec/60_exceptions.md rule R94 for its command: the check of R96, then the effect of the command's rule.
-/

namespace Sys2Proof.Machine

/-- INIT (R83). -/
def execInit (outlen keylen : BitVec 7) (saltlen perslen : BitVec 5) (s : State) : Host.Outcome State Fault Refusal :=
  s.conclude (s.checkInit outlen keylen saltlen perslen)
    { s with ctx := startSession outlen.toNat (s.keyBytes keylen) (s.saltBytes saltlen) (s.persBytes perslen) }

/-- INIT_PARAMS (R84). No key is absorbed, whatever `LPB[1]` holds (R68). -/
def execInitParams (ln : Bool) (s : State) : Host.Outcome State Fault Refusal :=
  s.conclude s.checkInitParams { s with ctx := ctxInit s.latch.pb.toList ln }

/-- UPDATE (R85). -/
def execUpdate (s : State) : Host.Outcome State Fault Refusal :=
  s.conclude s.checkUpdate { s with ctx := (s.ctx.absorb s.messageBytes).enter .absorbing }

/-- FINAL (R86): `outlen` bytes of the digest are written, and no others. -/
def execFinal (outlen : BitVec 7) (s : State) : Host.Outcome State Fault Refusal :=
  s.conclude (s.checkFinal outlen)
    { s with
      ctx := s.ctx.finish.enter .finalized
      mem := s.storeOutput (s.ctx.finish.digest.take s.ctx.outlen) }

end Sys2Proof.Machine
end

