-- ==== Sys2Proof/Machine/Dispatch.lean ====
section
/-!
DEFINITION. The dispatch of a decoded command to its meaning, one arm per row of spec/opcode_table.json.
-/

namespace Sys2Proof.Machine

def exec (i : Instr) (s : State) : Host.Outcome State Fault Refusal :=
  match i with
  | .init outlen keylen saltlen perslen => Sys2Proof.Machine.execInit outlen keylen saltlen perslen s
  | .initParams ln => Sys2Proof.Machine.execInitParams ln s
  | .update => Sys2Proof.Machine.execUpdate s
  | .final outlen => Sys2Proof.Machine.execFinal outlen s
  | .hash outlen keylen saltlen perslen => Sys2Proof.Machine.execHash outlen keylen saltlen perslen s
  | .hashLong => Sys2Proof.Machine.execHashLong s

end Sys2Proof.Machine
end

