-- ==== Sys2Proof/Decode.lean ====
section
/-!
DEFINITION. The command word (spec/30_encoding.md): its fields (R56), the match and mask table (R59), the decoder, which
refuses every illegal word of R61 under a name, and the encoder (R60).
-/

namespace Sys2Proof

/-- The `len` bits of the command word from bit `lo` upward. -/
def field (w : Word) (lo len : Nat) : BitVec len := w.extractLsb' lo len

/-- OP, bits [3:0] (R56). -/
def fieldOp (w : Word) : BitVec 4 := field w 0 4
/-- OUTLEN, bits [10:4] (R56). -/
def fieldOutlen (w : Word) : BitVec 7 := field w 4 7
/-- KEYLEN, bits [17:11] (R56). -/
def fieldKeylen (w : Word) : BitVec 7 := field w 11 7
/-- SALTLEN, bits [22:18] (R56). -/
def fieldSaltlen (w : Word) : BitVec 5 := field w 18 5
/-- PERSLEN, bits [27:23] (R56). -/
def fieldPerslen (w : Word) : BitVec 5 := field w 23 5
/-- LN, bit [28] (R56). -/
def fieldLn (w : Word) : Bool := w.getLsbD 28
/-- RSV, bits [31:29] (R56). -/
def fieldRsv (w : Word) : BitVec 3 := field w 29 3
/-- RSVH, bits [63:32] (R56). -/
def fieldRsvh (w : Word) : BitVec 32 := field w 32 32

/-- The rows of the opcode map (R58). -/
inductive Opcode where
  | init | initParams | update | final | hash | hashLong
  deriving DecidableEq, Repr

/-- The value of OP that selects a row (R58). -/
def Opcode.code : Opcode → BitVec 4
  | .init => 1
  | .initParams => 2
  | .update => 3
  | .final => 4
  | .hash => 5
  | .hashLong => 6

/-- A row of the match and mask table (R59). -/
structure OpRow where
  op : Opcode
  pattern : Word
  mask : Word
  deriving DecidableEq, Repr

/-- `w & mask == match` (R59). -/
def OpRow.matches (r : OpRow) (w : Word) : Bool := (w &&& r.mask) == r.pattern

/-- The match and mask table of R59 (spec/opcode_table.json). -/
def opTable : List OpRow :=
  [ ⟨.init,       0x0000000000000001, 0xFFFFFFFFF000000F⟩,
    ⟨.initParams, 0x0000000000000002, 0xFFFFFFFFEFFFFFFF⟩,
    ⟨.update,     0x0000000000000003, 0xFFFFFFFFFFFFFFFF⟩,
    ⟨.final,      0x0000000000000004, 0xFFFFFFFFFFFFF80F⟩,
    ⟨.hash,       0x0000000000000005, 0xFFFFFFFFF000000F⟩,
    ⟨.hashLong,   0x0000000000000006, 0xFFFFFFFFFFFFFFFF⟩ ]

/-- The opcode whose row the word matches (R59). -/
def selectRow (w : Word) : Option Opcode := (opTable.find? (·.matches w)).map (·.op)

/-- Why a word is illegal: the items of R61. -/
inductive DecodeError where
  /-- R61 item 1: `RSVH` or `RSV` is not zero. -/
  | reservedBits
  /-- R61 item 2: OP is 0 or 7 to 15. -/
  | reservedOpcode
  /-- R61 item 3: a field that the opcode does not use is not zero. -/
  | unusedField
  /-- R61 item 4: SALTLEN is above 16 in INIT or HASH. -/
  | longSalt
  /-- R61 item 4: PERSLEN is above 16 in INIT or HASH. -/
  | longPers
  /-- Fewer than the eight bytes of a command word were given (R56, R62: one 64-bit write). -/
  | tooFewBytes
  deriving DecidableEq, Repr

/-- The name of the refusal for a word that matches no row (R61 items 1 to 3). -/
def noRowError (w : Word) : DecodeError :=
  if fieldRsvh w ≠ 0 ∨ fieldRsv w ≠ 0 then .reservedBits
  else if fieldOp w = 0 ∨ 7 ≤ (fieldOp w).toNat then .reservedOpcode
  else .unusedField

/-- An INIT or HASH word is legal only with SALTLEN and PERSLEN at most 16 (R61 item 4). -/
def guardLengths (saltlen perslen : BitVec 5) (i : Instr) : Except DecodeError Instr :=
  if saltlenLegal saltlen = false then .error .longSalt
  else if perslenLegal perslen = false then .error .longPers
  else .ok i

/-- The decoder: the command a word stands for, or the reason it is illegal (R59, R61). -/
def decodeCommand (w : Word) : Except DecodeError Instr :=
  match selectRow w with
  | none => .error (noRowError w)
  | some .init =>
    guardLengths (fieldSaltlen w) (fieldPerslen w)
      (.init (fieldOutlen w) (fieldKeylen w) (fieldSaltlen w) (fieldPerslen w))
  | some .initParams => .ok (.initParams (fieldLn w))
  | some .update => .ok .update
  | some .final => .ok (.final (fieldOutlen w))
  | some .hash =>
    guardLengths (fieldSaltlen w) (fieldPerslen w)
      (.hash (fieldOutlen w) (fieldKeylen w) (fieldSaltlen w) (fieldPerslen w))
  | some .hashLong => .ok .hashLong

/-- The decoder on bytes as the register block stores them: byte `k` of CMD is bits `[8k+7:8k]` (R43). Every command is
exactly eight bytes (R62); what follows them is returned. -/
def decodeBytes (bs : List Byte) : Except DecodeError (Instr × List Byte) :=
  if bs.length < 8 then .error .tooFewBytes
  else (decodeCommand (Machine.le64 bs 0)).map fun i => (i, bs.drop 8)

/-- `enc` of R60. -/
def encodeFields (op : BitVec 4) (outlen keylen : BitVec 7) (saltlen perslen : BitVec 5) (ln : Bool) : Word :=
  op.setWidth 64 ||| (outlen.setWidth 64 <<< 4) ||| (keylen.setWidth 64 <<< 11) ||| (saltlen.setWidth 64 <<< 18)
    ||| (perslen.setWidth 64 <<< 23) ||| ((BitVec.ofBool ln).setWidth 64 <<< 28)

/-- The encoder: the command word of a command (R59, R60). -/
def encode : Instr → Word
  | .init outlen keylen saltlen perslen => encodeFields Opcode.init.code outlen keylen saltlen perslen false
  | .initParams ln => encodeFields Opcode.initParams.code 0 0 0 0 ln
  | .update => encodeFields Opcode.update.code 0 0 0 0 false
  | .final outlen => encodeFields Opcode.final.code outlen 0 0 0 false
  | .hash outlen keylen saltlen perslen => encodeFields Opcode.hash.code outlen keylen saltlen perslen false
  | .hashLong => encodeFields Opcode.hashLong.code 0 0 0 0 false

/-- The 64-bit command word the host's numbering gives: bit 0 the least significant; the bits above `nbits` are zero. -/
def tableWord (nbits w : Nat) : Word := BitVec.ofNat 64 (w % 2 ^ nbits)

/-- What the decoder reads from a command word numbered as spec/opcode_table.json numbers it. The word is laid out in
the byte order of the register block (R43) and decoded from its bytes; a word that needs more than the 64 bits of R56 is
no command word. -/
def decodeTableWord (nbits w : Nat) : Option Instr :=
  if w % 2 ^ nbits < 2 ^ 64 then
    match decodeBytes (Machine.bytes64 (tableWord nbits w)) with
    | .ok (i, _) => some i
    | .error _ => none
  else none

end Sys2Proof
end

