-- ==== Sys2Proof/Machine/HostPort.lean ====
section
/-!
DEFINITION. Host accesses (spec/20_memory.md rules R45, R50; spec/70_reset_and_hazards.md rule R113): to the register
block by host physical address, and to host memory.
-/

namespace Sys2Proof.Machine

/-- The ranges the running command reads: those of a command that is BUSY and passes its check, since any other reads
nothing (R50, R96; DEDUCED, log 8). -/
def State.busyReads (s : State) : List Range :=
  match s.busy, decodeCommand s.latch.cmd with
  | true, .ok i => if s.check i = .ok then s.readRanges i else []
  | _, _ => []

/-- The ranges the running command writes (as `busyReads`). -/
def State.busyWrites (s : State) : List Range :=
  match s.busy, decodeCommand s.latch.cmd with
  | true, .ok i => if s.check i = .ok then s.writeRanges i else []
  | _, _ => []

/-- The address lies in the register block (R14). -/
def Platform.inBlock (p : Platform) (addr : Nat) : Bool :=
  decide (p.base ≤ addr) && decide (addr < p.base + Config.blockBytes)

/-- The access is the aligned 8-byte access that R45 asks for. -/
def Platform.aligned (p : Platform) (addr width : Nat) : Bool := width == 8 && (addr - p.base) % 8 == 0

/-- The index of the 8-byte slot at an address of the block (R14). -/
def Platform.slot (p : Platform) (addr : Nat) : Nat := (addr - p.base) / 8

/-- Why a register access has no meaning, if it has none (R45, R107). -/
def Platform.accessRefusal (p : Platform) (addr width : Nat) : Option Refusal :=
  if p.inBlock addr = false then some .notRegisterBlock
  else if p.aligned addr width = false then some .registerAccessForm
  else none

/-- One host access. A load changes nothing but what the host sees (R45). A store to host memory, and a load from it,
must keep host duty 2 (R50): no write to a byte the running command reads, no access to a byte it writes. -/
def State.hostAccess (s : State) : Access → Host.Outcome State Fault Refusal
  | .regLoad addr width =>
    match s.platform.accessRefusal addr width with
    | some r => .refused r
    | none => .next { s with response := some (.reg (s.readSlot (s.platform.slot addr))) }
  | .regStore addr width value =>
    match s.platform.accessRefusal addr width with
    | some r => .refused r
    | none => .next (s.writeSlot (s.platform.slot addr) value)
  | .memLoad addr len =>
    if Config.memSize < addr + len then .fault .outsideHostMemory
    else if s.busyWrites.any (Range.overlaps ⟨addr, len⟩) then .refused .busyRange
    else .next { s with response := some (.mem (s.mem.readBytes addr len)) }
  | .memStore addr bytes =>
    if Config.memSize < addr + bytes.length then .fault .outsideHostMemory
    else if (s.busyReads ++ s.busyWrites).any (Range.overlaps ⟨addr, bytes.length⟩) then .refused .busyRange
    else .next { s with mem := s.mem.writeBytes addr bytes }

end Sys2Proof.Machine
end

