-- ==== Sys2Proof/Machine/Reset.lean ====
section
/-!
DEFINITION. The reset signal (spec/70_reset_and_hazards.md rule R111). The engine takes its reset state; memory keeps
its bytes, but for the output range of a command that was BUSY, whose bytes are free values.
-/

namespace Sys2Proof.Machine

/-- The output ranges of the command in the latch (R111): those of its row, and none for an illegal word, which never
touches memory (R96). -/
def State.outputRanges (s : State) : List Range :=
  match decodeCommand s.latch.cmd with
  | .ok i => s.writeRanges i
  | .error _ => []

/-- `n` free bytes, the first of them number `ctr` (R111, U18 of spec/93; log 6). -/
def freeBytes (ctr n : Nat) : List Byte := (List.range n).map fun j => Config.freeByte (ctr + j)

/-- Every byte of the range takes a free value (R111), as far as there are addresses: a range that passes 2^64 is cut
there, where host memory ends (R40). Admission plays no part (log 6). -/
def State.scramble (s : State) (r : Range) : State :=
  let n := min r.len (Config.memSize - r.addr)
  { s with mem := s.mem.writeBytes r.addr (freeBytes s.freeCtr n), freeCtr := s.freeCtr + n }

/-- The memory effect of a reset: an abandoned command's output ranges take free values (R111). DESIGN CHOICE (log 9),
unsafe: at the first reset since power-up no register has a value (R112 item 2), and the spec does not say what that
reset does to memory; here it is as any other, by the `busy` bit and the latch that the state holds. -/
def State.abandon (s : State) : State :=
  if s.busy then s.outputRanges.foldl State.scramble s else s

/-- Reset (R111): one indivisible step. What is not the engine's (memory, the platform, the moves to come, what the
host last read) stays. -/
def State.applyReset (s : State) : State :=
  let t := s.abandon
  { State.resetOn s.platform with
    mem := t.mem, freeCtr := t.freeCtr, schedule := s.schedule, response := s.response }

end Sys2Proof.Machine
end

