-- ==== Sys2Proof/Machine/Engine.lean ====
section
/-!
DEFINITION. The moves of the agents (spec/10_state.md rule R11): the engine's completion step (spec/60_exceptions.md
rule R94), the reset signal (R111) and host accesses.
-/

namespace Sys2Proof.Machine

/-- `Complete()` (R94): the command in the latch is decoded, checked and executed; an illegal word completes with
IllegalCommand (R61, R96). -/
def State.completeCommand (s : State) : Host.Outcome State Fault Refusal :=
  match decodeCommand s.latch.cmd with
  | .ok i => exec i s
  | .error _ => .next (s.raise .illegalCommand)

/-- The engine's move. While BUSY it has exactly one enabled step, the completion step (R94). While BUSY is 0 it is idle
(R110) and nothing changes (log 12). Before the first reset there is no step (R112 item 2). -/
def State.engineMove (s : State) : Host.Outcome State Fault Refusal :=
  if s.resetDone then (if s.busy then s.completeCommand else .next s)
  else .fault .beforeFirstReset

/-- One move of an agent. Reset may come at any time (R111); before the first one a host has no step (R112 item 2).
DESIGN CHOICE (log 16), unsafe: R111 makes the reset's effect one step, but R112 item 2 speaks of a reset that is "no
longer asserted", and the spec says neither how long it stays asserted nor what a host access made meanwhile does. Here
a reset is over with its one move, and no state holds it asserted. -/
def State.runMove (s : State) : Move → Host.Outcome State Fault Refusal
  | .engine => s.engineMove
  | .reset => .next s.applyReset
  | .host a => if s.resetDone then s.hostAccess a else .fault .beforeFirstReset

/-- The move that comes next: the head of the schedule, or the engine's when the schedule is empty (log 1). -/
def State.nextMove (s : State) : Move := s.schedule.headD .engine

/-- The state without the move that comes next. -/
def State.popMove (s : State) : State := { s with schedule := s.schedule.tail }

/-- The command word `w` stands accepted and the engine moves next: a CMD write of `w` has reached an idle engine (R93),
on a machine that has been reset. -/
def State.placeCommand (s : State) (w : Word) : State :=
  { s.accept w with resetDone := true, schedule := .engine :: s.schedule }

end Sys2Proof.Machine
end

