-- ==== Sys2Proof/Machine/Step.lean ====
section
/-!
DEFINITION. One step of the machine, and where a step finds the command it runs.
-/

namespace Sys2Proof.Machine

/-- One step: the agent whose move comes next makes it (spec/10_state.md rule R11; log 1). -/
def step (s : State) : Host.Outcome State Fault Refusal := s.popMove.runMove s.nextMove

/-- `s` with the command word stored where the engine finds its next command: the command latch, with BUSY set, as a CMD
write to an idle engine leaves it (R93; log 7). The next step is the completion of exactly that command. -/
def State.withFetchWord (s : State) (nbits w : Nat) : State := s.placeCommand (tableWord nbits w)

end Sys2Proof.Machine
end

