-- ==== Sys2Proof/Machine/HostProgram.lean ====
section
/-!
DEFINITION. The host-program notation of spec/30_encoding.md rules R63 and R64, as moves for the schedule. Labels, host
variables and `if cond goto` are the host's own computation and touch no state of the machine, so a host program stands
here as the accesses it makes.
-/

namespace Sys2Proof.Machine

/-- `wr REG, value` (R63). -/
def Platform.wr (p : Platform) (r : Reg) (value : Word) : List Move := [.host (.regStore (p.base + r.offset) 8 value)]

/-- `rd REG -> name` (R63); the value is the machine's response. -/
def Platform.rd (p : Platform) (r : Reg) : List Move := [.host (.regLoad (p.base + r.offset) 8)]

/-- `mem ADDR: bytes` (R63): a start-state directive. -/
def State.withMem (s : State) (addr : Nat) (bytes : List Byte) : State :=
  { s with mem := s.mem.writeBytes addr bytes }

/-- `cmd WORD` (R64). -/
def Platform.cmdWord (p : Platform) (w : Word) : List Move := p.wr .cmd w

/-- `cmd MNEMONIC fields` (R64). -/
def Platform.cmd (p : Platform) (i : Instr) : List Move := p.cmdWord (encode i)

/-- `wait` (R64), in the runs where the command completes after `polls` reads of STATUS that still found BUSY set. -/
def Platform.wait (p : Platform) (polls : Nat) : List Move :=
  (List.replicate polls (p.rd .status)).flatten ++ .engine :: p.rd .status

/-- `run MNEMONIC fields` (R64). -/
def Platform.run (p : Platform) (i : Instr) (polls : Nat) : List Move := p.cmd i ++ p.wait polls

/-- `check ERR = e` (R64): a test assertion on STATUS, with no engine effect. -/
def State.errIs (s : State) (e : ErrCode) : Bool := s.status.extractLsb' 3 4 == e.code

end Sys2Proof.Machine
end

