-- ==== Sys2Proof/Safety.lean ====
section
/-!
DEFINITION. What claims are stated in: the invariants of spec/10_state.md rules R32, R38 and R39, the observation of
spec/70_reset_and_hazards.md rule R116, and the plain descriptions of the two chains of hashing that the streaming
commands (spec/42_streaming.md rule R87) and HASH_LONG (spec/44_long.md rule R92) must agree with.
-/

namespace Sys2Proof.Safety

open Sys2Proof.Machine

/-- The session is open: phase Initialized or Absorbing (R38). -/
abbrev Open (p : Phase) : Prop := p = .initialized ∨ p = .absorbing

/-- The invariant of the session context (R31, R32, R38, R39). -/
structure SessionInv (c : Session) : Prop where
  /-- R31. -/
  buflen_le : c.buflen ≤ 128
  /-- R32. -/
  outlen_le : c.outlen ≤ 64
  /-- R32: outside Uninitialized the digest length is in 1..64. -/
  outlen_pos : c.phase ≠ .uninitialized → 1 ≤ c.outlen
  /-- R38: in an open session both flags are 0. -/
  open_flags : Open c.phase → c.f0 = 0 ∧ c.f1 = 0
  /-- R38: in an open session the counter is a multiple of the block size. -/
  open_counter : Open c.phase → c.t.toNat % 128 = 0
  /-- R38: in an open session an empty buffer means that nothing has been absorbed. -/
  open_empty : Open c.phase → c.buflen = 0 → c.t = 0
  /-- R39: in a finished session the flags are those of the final compression. -/
  closed_flags : c.phase = .finalized → c.f0 = finalF0 ∧ c.f1 = finalF1 c.lastNode

/-- The invariant of the machine: host memory in its canonical form and within the address space (R40), the session
invariant, and ERR 0 while a command is BUSY (R98). -/
structure StateInv (s : State) : Prop where
  mem_wf : s.mem.wf
  mem_inSpace : s.mem.inSpace
  session : SessionInv s.ctx
  busy_err : s.busy = true → s.err = .ok

/-- A quiescent state (R116): BUSY is 0 and the host has no further move. DESIGN CHOICE (log 15), safe: R116 speaks of
the host program's steps only, and this asks for the whole schedule to be empty, so a state from which only engine or
reset moves are to come is not counted as the end of a run. DESIGN CHOICE (log 15), safe: before the first reset BUSY has
no value (R112 item 2), and R116 does not say whether a run can end there; here it cannot. -/
abbrev Quiescent (s : State) : Prop := s.resetDone = true ∧ s.busy = false ∧ s.schedule = []

/-- What is observed at the end of a run (R116). -/
structure Observation where
  mem : Memory
  registers : List Word
  deriving DecidableEq, Repr

/-- The observation of a state (R116): host memory and every slot of the register block. -/
def observe (s : State) : Observation where
  mem := s.mem
  registers := (List.range 32).map s.readSlot

/-- A host issues the command `i` to an idle engine and the engine completes it: the CMD write (R93), then the
completion step (R94). -/
def issue (i : Instr) (s : State) : Host.Outcome State Fault Refusal := (s.writeReg .cmd (encode i)).engineMove

/-- A state as a failed command leaves it (R97): ERR and BUSY, and nothing else. -/
abbrev failedWith (s : State) (e : ErrCode) : State := { s with err := e, busy := false }

/-- The illegal command words, as the four items of R61 list them on the bits of the word. -/
def IllegalWord (w : Word) : Prop :=
  let op := (w.extractLsb' 0 4).toNat
  let outlen := (w.extractLsb' 4 7).toNat
  let keylen := (w.extractLsb' 11 7).toNat
  let saltlen := (w.extractLsb' 18 5).toNat
  let perslen := (w.extractLsb' 23 5).toNat
  let ln := (w.extractLsb' 28 1).toNat
  (w.extractLsb' 29 3 ≠ 0 ∨ w.extractLsb' 32 32 ≠ 0) ∨
  (op = 0 ∨ 7 ≤ op) ∨
  ((op = 1 ∨ op = 5) ∧ ln ≠ 0) ∨
  (op = 2 ∧ (outlen ≠ 0 ∨ keylen ≠ 0 ∨ saltlen ≠ 0 ∨ perslen ≠ 0)) ∨
  ((op = 3 ∨ op = 6) ∧ (outlen ≠ 0 ∨ keylen ≠ 0 ∨ saltlen ≠ 0 ∨ perslen ≠ 0 ∨ ln ≠ 0)) ∨
  (op = 4 ∧ (keylen ≠ 0 ∨ saltlen ≠ 0 ∨ perslen ≠ 0 ∨ ln ≠ 0)) ∨
  ((op = 1 ∨ op = 5) ∧ (16 < saltlen ∨ 16 < perslen))

/-- The compressions of a whole stream, block by block (R87 item 3): `t` bytes have gone before and `x` is what is left.
A stream of at most 128 bytes is its last block, zero-padded, with both counters and flags of a final compression;
otherwise the first 128 bytes are compressed with the counter after them and both flags 0. `fuel` bounds the number of
blocks; `x.length` is enough. -/
def chainBlocks : (fuel : Nat) → (h : Vector Word 8) → (t : Nat) → (x : List Byte) → (f1 : Word) → Vector Word 8
  | 0, h, t, x, f1 => compress h (padTo 128 x) (BitVec.ofNat 128 (t + x.length)) allOnes64 f1
  | fuel + 1, h, t, x, f1 =>
    if x.length ≤ 128 then compress h (padTo 128 x) (BitVec.ofNat 128 (t + x.length)) allOnes64 f1
    else
      chainBlocks fuel (compress h (padTo 128 (x.take 128)) (BitVec.ofNat 128 (t + 128)) 0 0) (t + 128) (x.drop 128) f1

/-- The stream a session absorbs (R87): the padded key block if there is a key, then the message. -/
def absorbedStream (key message : List Byte) : List Byte :=
  if 0 < key.length then key ++ zeros (128 - key.length) ++ message else message

/-- The hash of a message by R87: the chain of blocks over the absorbed stream, from the seeded chaining state. -/
def plainHash (outlen : Nat) (key salt pers message : List Byte) : List Byte :=
  let x := absorbedStream key message
  (bytesOfWords (chainBlocks x.length (seedChain (encodeParams outlen key.length salt pers)) 0 x 0)).take outlen

/-- The hash of a message by R87 in a session started from a parameter block (R84): no key block, the digest length the
block's first byte, and `f1` of the last compression by the last-node flag (R30). -/
def plainParams (pb : List Byte) (lastNode : Bool) (message : List Byte) : List Byte :=
  (bytesOfWords (chainBlocks message.length (seedChain pb) 0 message (if lastNode then allOnes64 else 0))).take
    (pb.getD 0 0).toNat

/-- `V(j+1)` of R90: the first 64-byte value hashed `j` more times. -/
def longValue (p : List Byte) : Nat → List Byte
  | 0 => hashH 64 p
  | j + 1 => hashH 64 (longValue p j)

/-- The output of HASH_LONG by the schedule of R92: for `T > 64` and `r = ceil(T/32) - 2`, the first 32 bytes of
`V1, ..., Vr`, then the hash of `Vr` with the `T - 32r` bytes that are left. -/
def plainLong (total : Nat) (x : List Byte) : List Byte :=
  let p := bytes32 (BitVec.ofNat 32 total) ++ x
  if total ≤ 64 then hashH total p
  else
    let r := (total + 31) / 32 - 2
    (List.range r).flatMap (fun j => (longValue p j).take 32) ++ hashH (total - 32 * r) (longValue p (r - 1))

end Sys2Proof.Safety
end

