-- ==== Sys2Proof/Certificates/Slice0/Obligations.lean ====
section
/-!
DEFINITION. The statements for the provers. Each docstring names the rule of the spec it formalises.
-/

open Sys2Proof Sys2Proof.Machine Sys2Proof.Safety

/-! ### The command word (spec/30_encoding.md) -/

/-- Every command's word decodes to the command, whatever its operands hold (R59, R60). -/
def Obligations.DecodeOfEncode : Prop :=
  ∀ i : Instr, i.wellFormed = true → decodeCommand (encode i) = .ok i

/-- A word that decodes is the word of what it decodes to, and that is a command (R59, R60, R61). -/
def Obligations.EncodeOfDecode : Prop :=
  ∀ (w : Word) (i : Instr), decodeCommand w = .ok i → encode i = w ∧ i.wellFormed = true

/-- R61: an illegal word, by the four items of the rule, is accepted by an idle engine and completes with
IllegalCommand; nothing else changes but CMD and the latch, which acceptance writes. Every other word is a command. -/
def Obligations.IllegalWordsComplete : Prop :=
  (∀ (s : State) (w : Word), s.resetDone = true → s.busy = false → IllegalWord w →
    (s.writeReg .cmd w).engineMove =
      .next { s with
        regs := { s.regs with cmd := w }, latch := s.regs.latch w, err := .illegalCommand, busy := false }) ∧
  (∀ w : Word, ¬ IllegalWord w → ∃ i, decodeCommand w = .ok i)

/-- The rows of the match and mask table do not overlap (R59). -/
def Obligations.TableRowsDoNotOverlap : Prop :=
  ∀ (w : Word), ∀ r ∈ opTable, ∀ q ∈ opTable, r.matches w = true → q.matches w = true → r = q

/-- The examples of R60 and some vectors of spec/95 section 2.1, written out as words. -/
def Obligations.SpecWordsDecode : Prop :=
  decodeCommand 0x401 = .ok (.init 64 0 0 0) ∧
  decodeCommand 0x20401 = .ok (.init 64 64 0 0) ∧
  decodeCommand 0x8400201 = .ok (.init 32 0 16 16) ∧
  decodeCommand 0x10000002 = .ok (.initParams true) ∧
  decodeCommand 0x3 = .ok .update ∧
  decodeCommand 0x404 = .ok (.final 64) ∧
  decodeCommand 0x205 = .ok (.hash 32 0 0 0) ∧
  decodeCommand 0x6 = .ok .hashLong ∧
  decodeCommand 0x440401 = .error .longSalt ∧
  decodeCommand 0x13 = .error .unusedField

/-- A command is exactly eight bytes, in the byte order of the register block (R43, R62). -/
def Obligations.CommandBytesDecode : Prop :=
  ∀ (w : Word) (rest : List Byte),
    decodeBytes (bytes64 w ++ rest) = (decodeCommand w).map (fun i => (i, rest))

/-! ### The datapath (spec/41_compression.md, spec/42_streaming.md rule R81) -/

/-- `rotr64` is the rotation toward bit 0 (R8). -/
def Obligations.RotationTowardBitZero : Prop :=
  ∀ (x : Word) (n k : Nat), 0 < n → n < 64 → k < 64 → (rotr64 x n).getLsbD k = x.getLsbD ((k + n) % 64)

/-- R76: the working vector before the first round. -/
def Obligations.WorkingVectorSetUp : Prop :=
  ∀ (h : Vector Word 8) (t : Counter) (f0 f1 : Word),
    (∀ i : Fin 8, (workingVector h t f0 f1)[i.val] = h[i]) ∧
    (∀ i : Fin 4, (workingVector h t f0 f1)[i.val + 8] = iv[i.val]) ∧
    (workingVector h t f0 f1)[12] = iv[4] ^^^ BitVec.ofNat 64 (t.toNat % 2 ^ 64) ∧
    (workingVector h t f0 f1)[13] = iv[5] ^^^ BitVec.ofNat 64 (t.toNat / 2 ^ 64) ∧
    (workingVector h t f0 f1)[14] = iv[6] ^^^ f0 ∧
    (workingVector h t f0 f1)[15] = iv[7] ^^^ f1

/-- R78: the output fold, after the twelve rounds. -/
def Obligations.OutputFold : Prop :=
  ∀ (h : Vector Word 8) (block : Vector Byte 128) (t : Counter) (f0 f1 : Word) (i : Fin 8),
    (compress h block t f0 f1)[i] =
      h[i] ^^^ (compressRounds (messageWords block) (workingVector h t f0 f1))[i.val] ^^^
        (compressRounds (messageWords block) (workingVector h t f0 f1))[i.val + 8]

/-- R81: the counter advance in its two words, and on the 128-bit value. -/
def Obligations.CounterAdvance : Prop :=
  ∀ (t : Counter) (n : Nat), n ≤ 128 →
    counterLow (advance t n) = counterLow t + BitVec.ofNat 64 n ∧
    counterHigh (advance t n) =
      counterHigh t + (if (counterLow (advance t n)).toNat < n then 1 else 0) ∧
    (advance t n).toNat = (t.toNat + n) % 2 ^ 128

/-! ### The parameter block (spec/40_param_codec.md) -/

/-- R66: the sequential-mode block, byte for byte. -/
def Obligations.SequentialParamBlock : Prop :=
  ∀ (o k : Nat) (salt pers : List Byte),
    1 ≤ o → o ≤ 64 → k ≤ 64 → salt.length ≤ 16 → pers.length ≤ 16 →
    encodeParams o k salt pers =
      [BitVec.ofNat 8 o, BitVec.ofNat 8 k, 1, 1] ++ zeros 4 ++ zeros 8 ++ [0, 0] ++ zeros 14 ++
        (salt ++ zeros (16 - salt.length)) ++ (pers ++ zeros (16 - pers.length))

/-- The codec of R65: the fields at their offsets are the fields packed in order, both ways. -/
def Obligations.ParamBlockRoundTrip : Prop :=
  (∀ p : ParamBlock, p.toBytes.length = 64 ∧ ParamBlock.ofBytes p.toBytes = p) ∧
  (∀ bs : List Byte, bs.length = 64 → (ParamBlock.ofBytes bs).toBytes = bs)

/-- R70: which fields of the block land in which chaining word (R69). -/
def Obligations.SeededWordsByField : Prop :=
  ∀ p : ParamBlock,
    (seedChain p.toBytes)[0] =
      iv[0] ^^^ (p.leafLength ++ p.depth ++ p.fanout ++ p.keyLength ++ p.digestLength : BitVec 64) ∧
    (seedChain p.toBytes)[1] = iv[1] ^^^ p.nodeOffset ∧
    (seedChain p.toBytes)[2] =
      iv[2] ^^^ (p.reserved[5] ++ p.reserved[4] ++ p.reserved[3] ++ p.reserved[2] ++ p.reserved[1] ++
        p.reserved[0] ++ p.innerLength ++ p.nodeDepth : BitVec 64) ∧
    (seedChain p.toBytes)[3] = iv[3] ^^^ le64 p.reserved.toList 6 ∧
    (seedChain p.toBytes)[4] = iv[4] ^^^ le64 p.salt.toList 0 ∧
    (seedChain p.toBytes)[5] = iv[5] ^^^ le64 p.salt.toList 8 ∧
    (seedChain p.toBytes)[6] = iv[6] ^^^ le64 p.personal.toList 0 ∧
    (seedChain p.toBytes)[7] = iv[7] ^^^ le64 p.personal.toList 8

/-! ### Where each command completes -/

/-- INIT completes (R83): with lengths in range and its ranges admitted, the session is the one `CtxInit` and the key
block give, in every phase. -/
def Obligations.InitCompletes : Prop :=
  ∀ (s : State) (o k : BitVec 7) (sl pl : BitVec 5),
    1 ≤ o.toNat → o.toNat ≤ 64 → k.toNat ≤ 64 → sl.toNat ≤ 16 → pl.toNat ≤ 16 →
    s.platform.admits ⟨s.latch.key.toNat, k.toNat⟩ = true →
    s.platform.admits ⟨s.latch.salt.toNat, sl.toNat⟩ = true →
    s.platform.admits ⟨s.latch.pers.toNat, pl.toNat⟩ = true →
    exec (.init o k sl pl) s =
      .next { s with
        err := .ok
        busy := false
        ctx :=
          { h := seedChain (encodeParams o.toNat k.toNat (s.mem.readBytes s.latch.salt.toNat sl.toNat)
              (s.mem.readBytes s.latch.pers.toNat pl.toNat))
            t := 0
            f0 := 0
            f1 := 0
            buf := if k.toNat = 0 then Vector.replicate 128 0
              else padTo 128 (s.mem.readBytes s.latch.key.toNat k.toNat)
            buflen := if k.toNat = 0 then 0 else 128
            outlen := o.toNat
            lastNode := false
            phase := .initialized } }

/-- INIT_PARAMS completes (R84): with a legal block (R68) the session is the one `CtxInit` gives, and no key is
absorbed. -/
def Obligations.InitParamsCompletes : Prop :=
  ∀ (s : State) (ln : Bool),
    1 ≤ s.latch.pb[0].toNat → s.latch.pb[0].toNat ≤ 64 → s.latch.pb[1].toNat ≤ 64 →
    (∀ j : Fin 14, s.latch.pb[18 + j.val] = 0) →
    exec (.initParams ln) s =
      .next { s with
        err := .ok
        busy := false
        ctx :=
          { h := Vector.ofFn fun i => iv[i] ^^^ le64 s.latch.pb.toList (8 * i.val)
            t := 0
            f0 := 0
            f1 := 0
            buf := Vector.replicate 128 0
            buflen := 0
            outlen := s.latch.pb[0].toNat
            lastNode := ln
            phase := .initialized } }

/-- UPDATE completes (R85): in an open session, with the message range admitted, the session is the one the loop of the
rule gives on the message bytes. -/
def Obligations.UpdateCompletes : Prop :=
  ∀ s : State, Open s.ctx.phase → s.platform.admits ⟨s.latch.src.toNat, s.latch.srcLen.toNat⟩ = true →
    exec .update s =
      .next { s with
        err := .ok
        busy := false
        ctx := { (s.mem.readBytes s.latch.src.toNat s.latch.srcLen.toNat).foldl
            (fun c b =>
              if c.buflen = 128 then
                { c with
                  t := advance c.t 128
                  h := compress c.h c.buf (advance c.t 128) 0 0
                  buf := c.buf.setIfInBounds 0 b
                  buflen := 1 }
              else { c with buf := c.buf.setIfInBounds c.buflen b, buflen := c.buflen + 1 }) s.ctx with
          phase := .absorbing } }

/-- FINAL completes (R86): in an open session, with the session's digest length and the output range admitted.
That the finished session is kept, not cleared, is R39 (log 13). -/
def Obligations.FinalCompletes : Prop :=
  ∀ (s : State) (o : BitVec 7), Open s.ctx.phase → o.toNat = s.ctx.outlen →
    s.platform.admits ⟨s.latch.dst.toNat, s.ctx.outlen⟩ = true →
    ∃ c : Session,
      c.t = advance s.ctx.t s.ctx.buflen ∧
      c.f0 = allOnes64 ∧
      c.f1 = (if s.ctx.lastNode then allOnes64 else 0) ∧
      (∀ i : Fin 128, c.buf[i] = if i.val < s.ctx.buflen then s.ctx.buf[i] else 0) ∧
      c.h = compress s.ctx.h c.buf c.t c.f0 c.f1 ∧
      c.buflen = s.ctx.buflen ∧ c.outlen = s.ctx.outlen ∧ c.lastNode = s.ctx.lastNode ∧ c.phase = .finalized ∧
      exec (.final o) s =
        .next { s with
          err := .ok
          busy := false
          ctx := c
          mem := s.mem.writeBytes s.latch.dst.toNat ((bytesOfWords c.h).take s.ctx.outlen) }

/-- HASH completes (R88): in every phase, with lengths in range and all five ranges admitted, the session is that of the
message's one-shot hash (kept as R39 says, log 13), and its digest is written. -/
def Obligations.HashCompletes : Prop :=
  ∀ (s : State) (o k : BitVec 7) (sl pl : BitVec 5),
    1 ≤ o.toNat → o.toNat ≤ 64 → k.toNat ≤ 64 → sl.toNat ≤ 16 → pl.toNat ≤ 16 →
    s.platform.admits ⟨s.latch.key.toNat, k.toNat⟩ = true →
    s.platform.admits ⟨s.latch.salt.toNat, sl.toNat⟩ = true →
    s.platform.admits ⟨s.latch.pers.toNat, pl.toNat⟩ = true →
    s.platform.admits ⟨s.latch.src.toNat, s.latch.srcLen.toNat⟩ = true →
    s.platform.admits ⟨s.latch.dst.toNat, o.toNat⟩ = true →
    ∃ c : Session,
      c = { oneShot o.toNat (s.mem.readBytes s.latch.key.toNat k.toNat)
              (s.mem.readBytes s.latch.salt.toNat sl.toNat) (s.mem.readBytes s.latch.pers.toNat pl.toNat)
              (s.mem.readBytes s.latch.src.toNat s.latch.srcLen.toNat) with phase := .finalized } ∧
      c.outlen = o.toNat ∧ c.lastNode = false ∧ c.f0 = allOnes64 ∧ c.f1 = 0 ∧
      exec (.hash o k sl pl) s =
        .next { s with
          err := .ok
          busy := false
          ctx := c
          mem := s.mem.writeBytes s.latch.dst.toNat ((bytesOfWords c.h).take o.toNat) }

/-- HASH_LONG completes (R90): in every phase, with a length of 1 or more and both ranges admitted. The output has
exactly that length. The session is that of the last inner hash, of `n` bytes over `w` (kept as R39 says, log 13), and
its counter is the number of bytes that hash absorbed (R39). -/
def Obligations.HashLongCompletes : Prop :=
  ∀ s : State, s.latch.longLen ≠ 0 →
    s.platform.admits ⟨s.latch.src.toNat, s.latch.srcLen.toNat⟩ = true →
    s.platform.admits ⟨s.latch.dst.toNat, s.latch.longLen.toNat⟩ = true →
    ∃ (c : Session) (n : Nat) (p w out : List Byte),
      p = bytes32 s.latch.longLen ++ s.mem.readBytes s.latch.src.toNat s.latch.srcLen.toNat ∧
      n = (if s.latch.longLen.toNat ≤ 64 then s.latch.longLen.toNat
        else s.latch.longLen.toNat - 32 * ((s.latch.longLen.toNat + 31) / 32 - 2)) ∧
      w = (if s.latch.longLen.toNat ≤ 64 then p
        else longValue p ((s.latch.longLen.toNat + 31) / 32 - 2 - 1)) ∧
      c = { oneShot n [] [] [] w with phase := .finalized } ∧
      c.t = BitVec.ofNat 128 w.length ∧ c.outlen = n ∧ c.lastNode = false ∧ c.f0 = allOnes64 ∧ c.f1 = 0 ∧
      out.length = s.latch.longLen.toNat ∧
      out = plainLong s.latch.longLen.toNat (s.mem.readBytes s.latch.src.toNat s.latch.srcLen.toNat) ∧
      exec .hashLong s =
        .next { s with
          err := .ok
          busy := false
          ctx := c
          mem := s.mem.writeBytes s.latch.dst.toNat out }

/-! ### Errors (spec/60_exceptions.md) -/

/-- R67: the encode-path errors of INIT and HASH, the first failing check winning, and the name INIT_PARAMS gives a bad
digest length. -/
def Obligations.EncodePathErrors : Prop :=
  (∀ (s : State) (o k : BitVec 7) (sl pl : BitVec 5) (i : Instr),
    i = .init o k sl pl ∨ i = .hash o k sl pl →
    (16 < sl.toNat ∨ 16 < pl.toNat → exec i s = .next (failedWith s .illegalCommand)) ∧
    (sl.toNat ≤ 16 → pl.toNat ≤ 16 → o.toNat = 0 ∨ 64 < o.toNat →
      exec i s = .next (failedWith s .invalidOutputLength)) ∧
    (sl.toNat ≤ 16 → pl.toNat ≤ 16 → 1 ≤ o.toNat → o.toNat ≤ 64 → 64 < k.toNat →
      exec i s = .next (failedWith s .invalidKeyLength))) ∧
  (∀ (s : State) (ln : Bool), s.latch.pb[0].toNat = 0 ∨ 64 < s.latch.pb[0].toNat →
    exec (.initParams ln) s = .next (failedWith s .invalidDigestLength))

/-- R68: the checks of INIT_PARAMS in order; on a legal block the digest length is PB[0] and no key is absorbed. -/
def Obligations.ParamBlockErrors : Prop :=
  ∀ (s : State) (ln : Bool),
    (s.latch.pb[0].toNat = 0 ∨ 64 < s.latch.pb[0].toNat →
      exec (.initParams ln) s = .next (failedWith s .invalidDigestLength)) ∧
    (1 ≤ s.latch.pb[0].toNat → s.latch.pb[0].toNat ≤ 64 → 64 < s.latch.pb[1].toNat →
      exec (.initParams ln) s = .next (failedWith s .invalidKeyLength)) ∧
    (1 ≤ s.latch.pb[0].toNat → s.latch.pb[0].toNat ≤ 64 → s.latch.pb[1].toNat ≤ 64 →
      (∃ j : Fin 14, s.latch.pb[18 + j.val] ≠ 0) →
      exec (.initParams ln) s = .next (failedWith s .invalidParameter)) ∧
    (1 ≤ s.latch.pb[0].toNat → s.latch.pb[0].toNat ≤ 64 → s.latch.pb[1].toNat ≤ 64 →
      (∀ j : Fin 14, s.latch.pb[18 + j.val] = 0) →
      ∃ t, exec (.initParams ln) s = .next t ∧ t.err = .ok ∧ t.ctx.outlen = s.latch.pb[0].toNat ∧
        t.ctx.buflen = 0 ∧ ∀ i : Fin 8, t.ctx.h[i] = iv[i] ^^^ le64 s.latch.pb.toList (8 * i.val))

/-- UPDATE and FINAL outside an open session raise InvalidState, before their lengths and ranges are looked at; in an
open session a FINAL with another length than the session's raises InvalidOutputLength, and the session is kept (R86,
R96; decisions D10, D12). -/
def Obligations.SequenceErrors : Prop :=
  ∀ (s : State) (o : BitVec 7),
    (¬ Open s.ctx.phase →
      exec .update s = .next (failedWith s .invalidState) ∧
      exec (.final o) s = .next (failedWith s .invalidState)) ∧
    (Open s.ctx.phase → o.toNat ≠ s.ctx.outlen →
      exec (.final o) s = .next (failedWith s .invalidOutputLength))

/-- R41: which ranges are admitted; a command with a range that is not admitted has no effect, and where no earlier
test of R96 applies (its groups 1 to 3, written here on the operands) it raises BusError, also where the range passes
2^64. -/
def Obligations.RangesAreCheckedFirst : Prop :=
  (∀ (p : Platform) (a n : Nat),
    p.admits ⟨a, n⟩ = true ↔ n = 0 ∨ (a + n ≤ 2 ^ 64 ∧ ∀ i < n, p.memAdmits (a + i) = true)) ∧
  (∀ (s : State) (i : Instr), (∃ r ∈ s.ranges i, s.platform.admits r = false) →
    (∃ e, e ≠ .ok ∧ exec i s = .next (failedWith s e)) ∧
    ((match i with
      | .init o k sl pl => sl.toNat ≤ 16 ∧ pl.toNat ≤ 16 ∧ 1 ≤ o.toNat ∧ o.toNat ≤ 64 ∧ k.toNat ≤ 64
      | .initParams _ => True
      | .update => Open s.ctx.phase
      | .final o => Open s.ctx.phase ∧ o.toNat = s.ctx.outlen
      | .hash o k sl pl => sl.toNat ≤ 16 ∧ pl.toNat ≤ 16 ∧ 1 ≤ o.toNat ∧ o.toNat ≤ 64 ∧ k.toNat ≤ 64
      | .hashLong => s.latch.longLen ≠ 0) →
      exec i s = .next (failedWith s .busError)))

/-- R10: a command that raises an error changes nothing but ERR and BUSY, and a command that succeeds passed its
check. -/
def Obligations.AllOrNothing : Prop :=
  ∀ (i : Instr) (s t : State), exec i s = .next t →
    (t.err ≠ .ok → t = failedWith s t.err ∧ t.err = s.check i) ∧ (t.err = .ok → s.check i = .ok)

/-- R94: every accepted command completes, in one engine step, whatever its word; then the engine is idle, and an idle
engine's move changes nothing (the model's choice, log 12). -/
def Obligations.EveryCommandCompletes : Prop :=
  ∀ s : State, s.resetDone = true → s.busy = true →
    ∃ t, s.engineMove = .next t ∧ t.busy = false ∧ t.engineMove = .next t ∧
      (t.err ≠ .ok → t = failedWith s t.err)

/-! ### The session (spec/10_state.md, spec/42_streaming.md) -/

/-- R80: the phase transitions, and which commands raise InvalidState. -/
def Obligations.PhaseTransitions : Prop :=
  ∀ (i : Instr) (s t : State), exec i s = .next t →
    (t.err ≠ .ok → t.ctx.phase = s.ctx.phase) ∧
    (t.err = .ok →
      t.ctx.phase =
        match i with
        | .init _ _ _ _ => .initialized
        | .initParams _ => .initialized
        | .update => .absorbing
        | .final _ => .finalized
        | .hash _ _ _ _ => .finalized
        | .hashLong => .finalized) ∧
    (t.err = .invalidState ↔
      ((i = .update ∨ ∃ o, i = .final o) ∧ (s.ctx.phase = .uninitialized ∨ s.ctx.phase = .finalized)))

/-- The finalization flags (R26, R30): what each command leaves in them when it succeeds. -/
def Obligations.FinalizationFlags : Prop :=
  ∀ (i : Instr) (s t : State), exec i s = .next t → t.err = .ok →
    match i with
    | .init _ _ _ _ => t.ctx.f0 = 0 ∧ t.ctx.f1 = 0
    | .initParams _ => t.ctx.f0 = 0 ∧ t.ctx.f1 = 0
    | .update => t.ctx.f0 = s.ctx.f0 ∧ t.ctx.f1 = s.ctx.f1
    | .final _ => t.ctx.f0 = allOnes64 ∧ t.ctx.f1 = (if s.ctx.lastNode then allOnes64 else 0)
    | .hash _ _ _ _ => t.ctx.f0 = allOnes64 ∧ t.ctx.f1 = 0
    | .hashLong => t.ctx.f0 = allOnes64 ∧ t.ctx.f1 = 0

/-- R33: who sets `last_node`, who reads it, and its reset value. -/
def Obligations.LastNodeFlag : Prop :=
  (∀ (i : Instr) (s t : State), exec i s = .next t → t.err = .ok →
    match i with
    | .init _ _ _ _ => t.ctx.lastNode = false
    | .initParams ln => t.ctx.lastNode = ln
    | .update => t.ctx.lastNode = s.ctx.lastNode
    | .final _ => t.ctx.lastNode = s.ctx.lastNode ∧ t.ctx.f1 = (if s.ctx.lastNode then allOnes64 else 0)
    | .hash _ _ _ _ => t.ctx.lastNode = false
    | .hashLong => t.ctx.lastNode = false) ∧
  (∀ p : Platform, (State.resetOn p).ctx.lastNode = false)

/-- R32: who sets the session's digest length, that it stays in 1..64 outside Uninitialized, that FINAL writes as many
bytes of the final compression's result (in a session that meets R32's own range), what HASH and HASH_LONG leave, and
its reset value. -/
def Obligations.SessionDigestLength : Prop :=
  (∀ (i : Instr) (s t : State), exec i s = .next t → t.err = .ok →
    match i with
    | .init o _ _ _ => t.ctx.outlen = o.toNat
    | .initParams _ => t.ctx.outlen = s.latch.pb[0].toNat
    | .update => t.ctx.outlen = s.ctx.outlen
    | .final _ => t.ctx.outlen = s.ctx.outlen ∧
        ∃ out : List Byte,
          out = (bytesOfWords (compress s.ctx.h s.ctx.paddedBuf (advance s.ctx.t s.ctx.buflen) allOnes64
            (if s.ctx.lastNode then allOnes64 else 0))).take s.ctx.outlen ∧
          (s.ctx.outlen ≤ 64 → out.length = s.ctx.outlen) ∧
          t.mem = s.mem.writeBytes s.latch.dst.toNat out
    | .hash o _ _ _ => t.ctx.outlen = o.toNat
    | .hashLong => t.ctx.outlen = (if s.latch.longLen.toNat ≤ 64 then s.latch.longLen.toNat
        else s.latch.longLen.toNat - 32 * ((s.latch.longLen.toNat + 31) / 32 - 2))) ∧
  (∀ (i : Instr) (s t : State), exec i s = .next t →
    (s.ctx.phase ≠ .uninitialized → 1 ≤ s.ctx.outlen ∧ s.ctx.outlen ≤ 64) →
    (t.ctx.phase ≠ .uninitialized → 1 ≤ t.ctx.outlen ∧ t.ctx.outlen ≤ 64)) ∧
  (∀ p : Platform, (State.resetOn p).ctx.outlen = 0)

/-- The counter and the fill of the buffer after UPDATE of `n` bytes (R85, R87): counting the bytes in the buffer and
the message together, every full block but the last is compressed and counted. -/
def Obligations.UpdateCounterAndFill : Prop :=
  ∀ (c : Session) (bytes : List Byte), c.buflen ≤ 128 →
    (bytes = [] → c.absorb bytes = c) ∧
    (bytes ≠ [] →
      (c.absorb bytes).t = advance c.t (128 * ((c.buflen + bytes.length - 1) / 128)) ∧
      (c.absorb bytes).buflen = c.buflen + bytes.length - 128 * ((c.buflen + bytes.length - 1) / 128) ∧
      1 ≤ (c.absorb bytes).buflen ∧ (c.absorb bytes).buflen ≤ 128)

/-- R87 item 1 at the level of commands: two UPDATE commands on adjacent ranges leave what one leaves on the whole. -/
def Obligations.UpdateSplit : Prop :=
  ∀ (s : State) (n m : Word), Open s.ctx.phase → n.toNat + m.toNat < 2 ^ 64 →
    s.latch.srcLen = n + m → s.platform.admits ⟨s.latch.src.toNat, s.latch.srcLen.toNat⟩ = true →
    ∃ t t1 t2,
      exec .update s = .next t ∧
      exec .update { s with latch := { s.latch with srcLen := n } } = .next t1 ∧
      exec .update { t1 with latch := { t1.latch with src := s.latch.src + n, srcLen := m } } = .next t2 ∧
      t2.ctx = t.ctx ∧ t2.mem = t.mem ∧ t.err = .ok ∧ t1.err = .ok ∧ t2.err = .ok

/-- R87: the digest of a session depends only on the parameter block, the key, the message and the last-node flag, not
on the message's split: for every list of chunks it is that of the block-by-block chain. First for the sessions INIT
starts, keyed or not; then for those INIT_PARAMS starts, from every block and with either value of `last_node`. -/
def Obligations.StreamingIsTheBlockChain : Prop :=
  (∀ (o : Nat) (key salt pers : List Byte) (chunks : List (List Byte)), key.length ≤ 64 →
    ((chunks.foldl Session.absorb (startSession o key salt pers)).finish.digest).take o =
      plainHash o key salt pers chunks.flatten) ∧
  (∀ (pb : Vector Byte 64) (ln : Bool) (chunks : List (List Byte)),
    ((chunks.foldl Session.absorb (ctxInit pb.toList ln)).finish.digest).take pb[0].toNat =
      plainParams pb.toList ln chunks.flatten)

/-- HASH writes the digest of the block-by-block chain (R87, R88), computed from the bytes as they stood before any
output byte was written, also where the ranges overlap (R51). -/
def Obligations.HashWritesTheBlockChain : Prop :=
  ∀ (s t : State) (o k : BitVec 7) (sl pl : BitVec 5), s.mem.wf →
    exec (.hash o k sl pl) s = .next t → t.err = .ok →
    t.mem.readBytes s.latch.dst.toNat o.toNat =
      plainHash o.toNat (s.mem.readBytes s.latch.key.toNat k.toNat)
        (s.mem.readBytes s.latch.salt.toNat sl.toNat) (s.mem.readBytes s.latch.pers.toNat pl.toNat)
        (s.mem.readBytes s.latch.src.toNat s.latch.srcLen.toNat)

/-- HASH_LONG writes the output of the schedule of R92 (R90, R91), computed from the input as it stood before any output
byte was written (R51). -/
def Obligations.HashLongWritesTheSchedule : Prop :=
  ∀ s t : State, s.mem.wf → exec .hashLong s = .next t → t.err = .ok →
    t.mem.readBytes s.latch.dst.toNat s.latch.longLen.toNat =
      plainLong s.latch.longLen.toNat (s.mem.readBytes s.latch.src.toNat s.latch.srcLen.toNat)

/-- The equivalence of R88: in an idle state where HASH succeeds, HASH leaves the same memory, the same STATUS and the
same session as INIT, UPDATE and FINAL with the same fields and operands. (Where HASH fails on a message or output range
the two differ in STATUS, so the premise is on HASH.) R88 speaks of memory and STATUS; the equality of the finished
sessions goes past it and is the model's, which keeps a finished session (R39, log 13). -/
def Obligations.HashIsInitUpdateFinal : Prop :=
  ∀ (s : State) (o k : BitVec 7) (sl pl : BitVec 5), s.resetDone = true → s.busy = false →
    (s.accept (encode (.hash o k sl pl))).check (.hash o k sl pl) = .ok →
    ∃ t s1 s2 s3,
      issue (.hash o k sl pl) s = .next t ∧
      issue (.init o k sl pl) s = .next s1 ∧ issue .update s1 = .next s2 ∧ issue (.final o) s2 = .next s3 ∧
      s3.mem = t.mem ∧ s3.status = t.status ∧ s3.ctx = t.ctx

/-- The corner case of R84: INIT_PARAMS on the block `PBenc(o, 0, salt, pers)` with LN = 0 leaves the same state as an
unkeyed INIT with the same digest length, salt and personalization. -/
def Obligations.InitParamsIsUnkeyedInit : Prop :=
  ∀ (s : State) (o : BitVec 7) (sl pl : BitVec 5),
    1 ≤ o.toNat → o.toNat ≤ 64 → sl.toNat ≤ 16 → pl.toNat ≤ 16 →
    s.platform.admits ⟨s.latch.salt.toNat, sl.toNat⟩ = true →
    s.platform.admits ⟨s.latch.pers.toNat, pl.toNat⟩ = true →
    s.latch.pb.toList = encodeParams o.toNat 0 (s.mem.readBytes s.latch.salt.toNat sl.toNat)
      (s.mem.readBytes s.latch.pers.toNat pl.toNat) →
    ∃ t, exec (.initParams false) s = .next t ∧ exec (.init o 0 sl pl) s = .next t ∧ t.err = .ok

/-- R37: in phase Uninitialized no command reads the session. In every phase INIT, INIT_PARAMS, HASH and HASH_LONG
give the same memory, the same error and, when they succeed, the same session whatever the session was; UPDATE and
FINAL in phase Uninitialized raise InvalidState whatever the rest of it was. -/
def Obligations.SessionIsNotReadBeforeInit : Prop :=
  ∀ (s : State) (c : Session) (i : Instr),
    (i ≠ .update → (∀ o, i ≠ .final o) →
      ∃ t u, exec i s = .next t ∧ exec i { s with ctx := c } = .next u ∧ u.mem = t.mem ∧ u.err = t.err ∧
        (t.err = .ok → u.ctx = t.ctx)) ∧
    (c.phase = .uninitialized → (i = .update ∨ ∃ o, i = .final o) →
      exec i { s with ctx := c } = .next (failedWith { s with ctx := c } .invalidState))

/-! ### Frames -/

/-- What no command changes: every register of the block but the STATUS fields, the latch, the platform, and the model's
own fields (all six commands; R12, R35, R42 "no command changes an address register"). -/
def Obligations.CommandsKeepRegisters : Prop :=
  ∀ (i : Instr) (s t : State), exec i s = .next t →
    t.regs = s.regs ∧ t.latch = s.latch ∧ t.platform = s.platform ∧ t.resetDone = s.resetDone ∧
    t.schedule = s.schedule ∧ t.response = s.response ∧ t.freeCtr = s.freeCtr ∧ t.busy = false ∧
    (∀ r : Reg, r ≠ .status → t.readReg r = s.readReg r)

/-- The memory frame of all six commands: INIT, INIT_PARAMS and UPDATE store nothing; FINAL, HASH and HASH_LONG store
only in the range at LDST of the length their rule gives (R83 to R86, R88, R90). -/
def Obligations.CommandsKeepOtherMemory : Prop :=
  ∀ (i : Instr) (s t : State), exec i s = .next t →
    match i with
    | .init _ _ _ _ => ∀ a, t.mem.read a = s.mem.read a
    | .initParams _ => ∀ a, t.mem.read a = s.mem.read a
    | .update => ∀ a, t.mem.read a = s.mem.read a
    | .final _ => ∀ a, a < s.latch.dst.toNat ∨ s.latch.dst.toNat + s.ctx.outlen ≤ a →
        t.mem.read a = s.mem.read a
    | .hash o _ _ _ => ∀ a, a < s.latch.dst.toNat ∨ s.latch.dst.toNat + o.toNat ≤ a →
        t.mem.read a = s.mem.read a
    | .hashLong => ∀ a, a < s.latch.dst.toNat ∨ s.latch.dst.toNat + s.latch.longLen.toNat ≤ a →
        t.mem.read a = s.mem.read a

/-- The session frame of UPDATE and FINAL: UPDATE keeps the flags, the digest length and the last-node flag; FINAL keeps
the fill, the digest length, the last-node flag and the buffer's valid bytes (R85, R86; R39 and log 13). -/
def Obligations.StreamingKeepsSession : Prop :=
  (∀ s t : State, exec .update s = .next t → t.err = .ok →
    t.ctx.f0 = s.ctx.f0 ∧ t.ctx.f1 = s.ctx.f1 ∧ t.ctx.outlen = s.ctx.outlen ∧ t.ctx.lastNode = s.ctx.lastNode) ∧
  (∀ (s t : State) (o : BitVec 7), exec (.final o) s = .next t → t.err = .ok →
    t.ctx.buflen = s.ctx.buflen ∧ t.ctx.outlen = s.ctx.outlen ∧ t.ctx.lastNode = s.ctx.lastNode ∧
      ∀ i : Fin 128, i.val < s.ctx.buflen → t.ctx.buf[i] = s.ctx.buf[i])

/-! ### The register block and the host (spec/10_state.md, spec/20_memory.md, spec/70_reset_and_hazards.md) -/

/-- R93: acceptance of a CMD write by an idle engine, for every word; while BUSY the write is ignored. -/
def Obligations.Acceptance : Prop :=
  ∀ (s : State) (w : Word),
    (s.busy = false →
      ∃ pb : Vector Byte 64,
        (∀ (j k : Fin 8), pb[8 * j.val + k.val] = s.regs.param[j].extractLsb' (8 * k.val) 8) ∧
        s.writeReg .cmd w =
          { s with
            regs := { s.regs with cmd := w }
            err := .ok
            busy := true
            latch :=
              { cmd := w, src := s.regs.srcAddr, srcLen := s.regs.srcLen, dst := s.regs.dstAddr,
                key := s.regs.keyAddr, salt := s.regs.saltAddr, pers := s.regs.persAddr,
                longLen := s.regs.longOutlen, pb := pb } }) ∧
    (s.busy = true → s.writeReg .cmd w = s)

/-- The operand and PARAM registers read back what was written, LONG_OUTLEN its low 32 bits, at every phase and whether
or not BUSY is set; no other register changes (R17 to R24). -/
def Obligations.RegistersReadBack : Prop :=
  ∀ (s : State) (r : Reg) (v : Word), r ≠ .cmd → r ≠ .status →
    (s.writeReg r v).readReg r = (if r = .longOutlen then v &&& 0xFFFFFFFF else v) ∧
    (∀ q : Reg, q ≠ r → (s.writeReg r v).readReg q = s.readReg q) ∧
    s.writeReg .status v = s

/-- R25: the reserved offsets 0x48 to 0x78 and 0xC0 to 0xF8 read as zero and ignore writes. -/
def Obligations.ReservedSlots : Prop :=
  ∀ (s : State) (off : Nat) (v : Word), off % 8 = 0 → (0x48 ≤ off ∧ off ≤ 0x78) ∨ (0xC0 ≤ off ∧ off ≤ 0xF8) →
    s.readSlot (off / 8) = 0 ∧ s.writeSlot (off / 8) v = s

/-- R23: bits [31:0] of LONG_OUTLEN are read/write, bits [63:32] read as 0 and ignore writes; the length of HASH_LONG is
the 32-bit value at acceptance, and 0 is rejected. -/
def Obligations.LongOutlenRegister : Prop :=
  (∀ (s : State) (v : Word), (s.writeReg .longOutlen v).readReg .longOutlen = v &&& 0xFFFFFFFF) ∧
  (∀ (s : State) (v w : Word), ((s.writeReg .longOutlen v).accept w).latch.longLen.toNat = v.toNat % 2 ^ 32) ∧
  (∀ s : State, s.latch.longLen = 0 → exec .hashLong s = .next (failedWith s .invalidOutputLength)) ∧
  (∀ p : Platform, (State.resetOn p).readReg .longOutlen = 0)

/-- R16 and R95: the fields of STATUS with the numbers of the phases and of the error codes, the bits that read as
zero, that a write is ignored and a read has no side effect (the loaded value is in the model's own field `response`,
log 11), that BUSY is 1 and ERR 0 from acceptance on, that at its end a command leaves BUSY 0 and ERR the code of its
outcome, and the value at reset. -/
def Obligations.StatusWord : Prop :=
  (∀ s : State,
    s.status.toNat =
      (if s.busy then 1 else 0) +
      2 * (match s.ctx.phase with
        | .uninitialized => 0
        | .initialized => 1
        | .absorbing => 2
        | .finalized => 3) +
      8 * (match s.err with
        | .ok => 0
        | .invalidDigestLength => 1
        | .invalidKeyLength => 2
        | .invalidOutputLength => 3
        | .invalidState => 4
        | .illegalCommand => 5
        | .invalidParameter => 6
        | .busError => 7) ∧
    s.readReg .status = s.status) ∧
  (∀ (s : State) (v : Word), s.writeReg .status v = s) ∧
  (∀ s : State, s.hostAccess (.regLoad (s.platform.base + 8) 8) = .next { s with response := some (.reg s.status) }) ∧
  (∀ (s : State) (w : Word), (s.accept w).err = .ok ∧ (s.accept w).busy = true) ∧
  (∀ (i : Instr) (s t : State), exec i s = .next t → t.busy = false ∧ t.err = s.check i) ∧
  (∀ p : Platform, (State.resetOn p).status = 0)

/-- R45: an aligned 8-byte access at an offset of the block is one whole register access, a load changes nothing but
what the host sees (the model's field `response`, log 11), and any other access to the block has no step (the model
refuses it by name, log 8). -/
def Obligations.RegisterAccesses : Prop :=
  ∀ (s : State) (addr width : Nat) (v : Word), s.platform.base ≤ addr → addr < s.platform.base + 256 →
    (width = 8 → (addr - s.platform.base) % 8 = 0 →
      s.hostAccess (.regLoad addr width) =
        .next { s with response := some (.reg (s.readSlot ((addr - s.platform.base) / 8))) } ∧
      s.hostAccess (.regStore addr width v) = .next (s.writeSlot ((addr - s.platform.base) / 8) v)) ∧
    (¬ (width = 8 ∧ (addr - s.platform.base) % 8 = 0) →
      s.hostAccess (.regLoad addr width) = .refused .registerAccessForm ∧
      s.hostAccess (.regStore addr width v) = .refused .registerAccessForm)

/-- The register table of R14: each register's offset, and that the slot at an offset holds that register and no other.
The offsets the table gives no register are those of R25 (ReservedSlots). -/
def Obligations.RegisterOffsets : Prop :=
  (Reg.offset .cmd = 0x00 ∧ Reg.offset .status = 0x08 ∧ Reg.offset .srcAddr = 0x10 ∧ Reg.offset .srcLen = 0x18 ∧
    Reg.offset .dstAddr = 0x20 ∧ Reg.offset .keyAddr = 0x28 ∧ Reg.offset .saltAddr = 0x30 ∧
    Reg.offset .persAddr = 0x38 ∧ Reg.offset .longOutlen = 0x40 ∧
    ∀ j : Fin 8, Reg.offset (.param j) = 0x80 + 8 * j.val) ∧
  (∀ r : Reg, r.offset % 8 = 0 ∧ r.offset < 256 ∧ Reg.ofSlot (r.offset / 8) = some r) ∧
  (∀ (k : Nat) (r : Reg), Reg.ofSlot k = some r → r.offset = 8 * k)

/-- Host duty 2 (R50), which the model refuses by name for a running command that passes its check (log 8): a host store
to a byte the running command reads or writes, and a host load of a byte it writes, have no step. Every other host
access to host memory has its effect: a store its write, and a load the bytes as they stand, in the model's own field
`response` (log 11). That is so for accesses that keep clear of a running command's ranges, for every access while the
engine is idle, and for every access while it holds a command that reads and writes nothing. -/
def Obligations.BusyRangesAreLeftAlone : Prop :=
  (∀ (s : State) (i : Instr) (a : Nat) (bytes : List Byte),
    s.busy = true → decodeCommand s.latch.cmd = .ok i → s.check i = .ok → a + bytes.length ≤ 2 ^ 64 →
    ((∃ j, j < bytes.length ∧ ∃ r ∈ s.ranges i, r.addr ≤ a + j ∧ a + j < r.addr + r.len) →
      s.hostAccess (.memStore a bytes) = .refused .busyRange) ∧
    ((∀ j, j < bytes.length → ∀ r ∈ s.ranges i, a + j < r.addr ∨ r.addr + r.len ≤ a + j) →
      s.hostAccess (.memStore a bytes) = .next { s with mem := s.mem.writeBytes a bytes })) ∧
  (∀ (s : State) (i : Instr) (a n : Nat),
    s.busy = true → decodeCommand s.latch.cmd = .ok i → s.check i = .ok → a + n ≤ 2 ^ 64 →
    ((∃ j, j < n ∧ ∃ r ∈ s.writeRanges i, r.addr ≤ a + j ∧ a + j < r.addr + r.len) →
      s.hostAccess (.memLoad a n) = .refused .busyRange) ∧
    ((∀ j, j < n → ∀ r ∈ s.writeRanges i, a + j < r.addr ∨ r.addr + r.len ≤ a + j) →
      s.hostAccess (.memLoad a n) =
        .next { s with response := some (.mem ((List.range n).map fun j => s.mem.read (a + j))) })) ∧
  (∀ (s : State) (a n : Nat) (bytes : List Byte),
    s.busy = false ∨ (∀ i, decodeCommand s.latch.cmd = .ok i → s.check i ≠ .ok) →
    (a + bytes.length ≤ 2 ^ 64 →
      s.hostAccess (.memStore a bytes) = .next { s with mem := s.mem.writeBytes a bytes }) ∧
    (a + n ≤ 2 ^ 64 →
      s.hostAccess (.memLoad a n) =
        .next { s with response := some (.mem ((List.range n).map fun j => s.mem.read (a + j))) }))

/-- A host write to an operand register while BUSY and the completion step commute: the write affects later commands
only (R35, R54, R100). -/
def Obligations.BusyRegisterWritesWait : Prop :=
  ∀ (s t : State) (r : Reg) (v : Word), s.busy = true → r ≠ .cmd → s.engineMove = .next t →
    (s.writeReg r v).engineMove = .next (t.writeReg r v)

/-- R111, the values the spec gives: what the reset signal leaves, in every state. The engine takes its reset values;
memory is unchanged outside the output range of a command that was BUSY, and each byte of that range is a free value
(`Config.freeByte` has no body, so this says no more than that the byte is not fixed, log 6). That the schedule loses
the reset's own move only is the model's (log 1), and so is what the first reset since power-up does to memory (log 9).
-/
def Obligations.ResetSignal : Prop :=
  ∀ s : State, s.nextMove = .reset →
    ∃ t, step s = .next t ∧
      (∀ k < 32, t.readSlot k = 0) ∧ t.busy = false ∧ t.err = .ok ∧
      t.ctx.phase = .uninitialized ∧ t.ctx.outlen = 0 ∧ t.ctx.lastNode = false ∧ t.ctx.buflen = 0 ∧
      t.platform = s.platform ∧ t.resetDone = true ∧ t.schedule = s.schedule.tail ∧
      (s.busy = false → t.mem = s.mem) ∧
      (s.busy = true → ∀ e, decodeCommand s.latch.cmd = .error e → t.mem = s.mem) ∧
      (s.busy = true → ∀ i, decodeCommand s.latch.cmd = .ok i →
        (∀ a, (∀ r ∈ s.writeRanges i, a < r.addr ∨ r.addr + r.len ≤ a) → t.mem.read a = s.mem.read a) ∧
        (s.mem.wf → ∀ r ∈ s.writeRanges i, ∀ j < r.len, r.addr + j < 2 ^ 64 →
          t.mem.read (r.addr + j) = Config.freeByte (s.freeCtr + j)))

/-- The state after reset (R111), on every platform: every register of the block reads 0 and the session fields the spec
gives a value have it. -/
def Obligations.ResetValues : Prop :=
  (∀ (p : Platform) (k : Nat), k < 32 → (State.resetOn p).readSlot k = 0) ∧
  (∀ p : Platform, (State.resetOn p).busy = false ∧ (State.resetOn p).err = .ok ∧
    (State.resetOn p).ctx.phase = .uninitialized ∧ (State.resetOn p).ctx.outlen = 0 ∧
    (State.resetOn p).ctx.lastNode = false ∧ (State.resetOn p).ctx.buflen = 0) ∧
  (∃ p, State.reset = State.resetOn p)

/-! ### Whole-machine rules -/

/-- A step runs the decoded command: where the engine moves next and the latched word decodes to `i`, the step is `exec`
of `i` on the state without that move (R94; which agent moves next is the model's `schedule`, log 1). -/
def Obligations.StepRunsTheCommand : Prop :=
  ∀ (s : State) (i : Instr), s.resetDone = true → s.busy = true → s.nextMove = .engine →
    decodeCommand s.latch.cmd = .ok i → step s = exec i { s with schedule := s.schedule.tail }

/-- The word placed by `withFetchWord` is what the next step runs, as after acceptance by an idle engine (R93; how a
command comes to run is log 7). -/
def Obligations.PlacedWordRuns : Prop :=
  ∀ (s : State) (w : Word) (i : Instr), decodeCommand w = .ok i →
    step (s.withFetchWord 64 w.toNat) = exec i { s.accept w with resetDone := true }

/-- The invariant every step keeps: host memory stays in canonical form (the model's, log 5) and within the address
space, the session keeps the invariants of R31, R32, R38 and R39, and ERR is 0 while a command is BUSY (R98). -/
def Obligations.StepKeepsInvariant : Prop :=
  ∀ s t : State, StateInv s → step s = .next t → StateInv t

/-- The invariant holds at reset, on every platform. -/
def Obligations.ResetMeetsInvariant : Prop := ∀ p : Platform, StateInv (State.resetOn p)

/-- The platform's parameters are fixed for a run (R112 item 1), and memory changes only by a completing command, a host
store or a reset (R40, R111; which agent moves is the model's `schedule`, log 1). That the first reset since power-up
changes memory only where the state's `busy` is set is the model's choice (log 9): BUSY has no value then. -/
def Obligations.WhatChangesMemory : Prop :=
  ∀ s t : State, step s = .next t →
    t.platform = s.platform ∧
    (t.mem ≠ s.mem →
      (s.nextMove = .engine ∧ s.busy = true) ∨ (s.nextMove = .reset ∧ s.busy = true) ∨
        ∃ a bytes, s.nextMove = .host (.memStore a bytes))

/-- ERR keeps its value until the next acceptance, and no move but the engine's completion step, a CMD write to an idle
engine and a reset changes BUSY (R93, R94, R98; which agent moves is the model's `schedule`, log 1). -/
def Obligations.WhatChangesStatus : Prop :=
  ∀ s t : State, step s = .next t → t.busy ≠ s.busy ∨ t.err ≠ s.err →
    (s.nextMove = .engine ∧ s.busy = true ∧ t.busy = false) ∨ s.nextMove = .reset ∨
      (s.busy = false ∧ t.busy = true ∧ t.err = .ok ∧
        ∃ w, s.nextMove = .host (.regStore s.platform.base 8 w) ∧ t.regs.cmd = w)

/-- Before the first reset no agent but the reset signal has a step (R112 item 2; `resetDone` and the named fault are
the model's, log 9). -/
def Obligations.NoStepBeforeReset : Prop :=
  ∀ s : State, s.resetDone = false →
    (s.nextMove ≠ .reset → step s = .fault .beforeFirstReset) ∧
    (s.nextMove = .reset → ∃ t, step s = .next t ∧ t.resetDone = true)

/-- The session is not observed, but for its phase (R27, R116). -/
def Obligations.SessionIsHidden : Prop :=
  ∀ (s : State) (c : Session), c.phase = s.ctx.phase → observe { s with ctx := c } = observe s
end

