-- ==== Sys2Proof/Laws/State.lean ====
section
/-!
SUPPORT. The small lemmas of the state's updates: one per field per update, true by definition, so that no later proof
unfolds a record update.
-/

namespace Sys2Proof.Machine

section StateUpdates
variable (s : State)

/-! #### `accept` -/

@[simp] theorem State.accept_regs (w : Word) : (s.accept w).regs = { s.regs with cmd := w } := rfl
@[simp] theorem State.accept_busy (w : Word) : (s.accept w).busy = true := rfl
@[simp] theorem State.accept_err (w : Word) : (s.accept w).err = .ok := rfl
@[simp] theorem State.accept_ctx (w : Word) : (s.accept w).ctx = s.ctx := rfl
@[simp] theorem State.accept_latch (w : Word) : (s.accept w).latch = s.regs.latch w := rfl
@[simp] theorem State.accept_mem (w : Word) : (s.accept w).mem = s.mem := rfl
@[simp] theorem State.accept_platform (w : Word) : (s.accept w).platform = s.platform := rfl
@[simp] theorem State.accept_resetDone (w : Word) : (s.accept w).resetDone = s.resetDone := rfl
@[simp] theorem State.accept_schedule (w : Word) : (s.accept w).schedule = s.schedule := rfl
@[simp] theorem State.accept_response (w : Word) : (s.accept w).response = s.response := rfl
@[simp] theorem State.accept_freeCtr (w : Word) : (s.accept w).freeCtr = s.freeCtr := rfl

/-! #### `raise` -/

@[simp] theorem State.raise_regs (e : ErrCode) : (s.raise e).regs = s.regs := rfl
@[simp] theorem State.raise_busy (e : ErrCode) : (s.raise e).busy = false := rfl
@[simp] theorem State.raise_err (e : ErrCode) : (s.raise e).err = e := rfl
@[simp] theorem State.raise_ctx (e : ErrCode) : (s.raise e).ctx = s.ctx := rfl
@[simp] theorem State.raise_latch (e : ErrCode) : (s.raise e).latch = s.latch := rfl
@[simp] theorem State.raise_mem (e : ErrCode) : (s.raise e).mem = s.mem := rfl
@[simp] theorem State.raise_platform (e : ErrCode) : (s.raise e).platform = s.platform := rfl
@[simp] theorem State.raise_resetDone (e : ErrCode) : (s.raise e).resetDone = s.resetDone := rfl
@[simp] theorem State.raise_schedule (e : ErrCode) : (s.raise e).schedule = s.schedule := rfl
@[simp] theorem State.raise_response (e : ErrCode) : (s.raise e).response = s.response := rfl
@[simp] theorem State.raise_freeCtr (e : ErrCode) : (s.raise e).freeCtr = s.freeCtr := rfl

/-! #### `complete` -/

@[simp] theorem State.complete_regs : (s.complete).regs = s.regs := rfl
@[simp] theorem State.complete_busy : (s.complete).busy = false := rfl
@[simp] theorem State.complete_err : (s.complete).err = .ok := rfl
@[simp] theorem State.complete_ctx : (s.complete).ctx = s.ctx := rfl
@[simp] theorem State.complete_latch : (s.complete).latch = s.latch := rfl
@[simp] theorem State.complete_mem : (s.complete).mem = s.mem := rfl
@[simp] theorem State.complete_platform : (s.complete).platform = s.platform := rfl
@[simp] theorem State.complete_resetDone : (s.complete).resetDone = s.resetDone := rfl
@[simp] theorem State.complete_schedule : (s.complete).schedule = s.schedule := rfl
@[simp] theorem State.complete_response : (s.complete).response = s.response := rfl
@[simp] theorem State.complete_freeCtr : (s.complete).freeCtr = s.freeCtr := rfl

/-! #### `popMove` -/

@[simp] theorem State.popMove_regs : (s.popMove).regs = s.regs := rfl
@[simp] theorem State.popMove_busy : (s.popMove).busy = s.busy := rfl
@[simp] theorem State.popMove_err : (s.popMove).err = s.err := rfl
@[simp] theorem State.popMove_ctx : (s.popMove).ctx = s.ctx := rfl
@[simp] theorem State.popMove_latch : (s.popMove).latch = s.latch := rfl
@[simp] theorem State.popMove_mem : (s.popMove).mem = s.mem := rfl
@[simp] theorem State.popMove_platform : (s.popMove).platform = s.platform := rfl
@[simp] theorem State.popMove_resetDone : (s.popMove).resetDone = s.resetDone := rfl
@[simp] theorem State.popMove_schedule : (s.popMove).schedule = s.schedule.tail := rfl
@[simp] theorem State.popMove_response : (s.popMove).response = s.response := rfl
@[simp] theorem State.popMove_freeCtr : (s.popMove).freeCtr = s.freeCtr := rfl

/-! #### `placeCommand` -/

@[simp] theorem State.placeCommand_regs (w : Word) : (s.placeCommand w).regs = { s.regs with cmd := w } := rfl
@[simp] theorem State.placeCommand_busy (w : Word) : (s.placeCommand w).busy = true := rfl
@[simp] theorem State.placeCommand_err (w : Word) : (s.placeCommand w).err = .ok := rfl
@[simp] theorem State.placeCommand_ctx (w : Word) : (s.placeCommand w).ctx = s.ctx := rfl
@[simp] theorem State.placeCommand_latch (w : Word) : (s.placeCommand w).latch = s.regs.latch w := rfl
@[simp] theorem State.placeCommand_mem (w : Word) : (s.placeCommand w).mem = s.mem := rfl
@[simp] theorem State.placeCommand_platform (w : Word) : (s.placeCommand w).platform = s.platform := rfl
@[simp] theorem State.placeCommand_resetDone (w : Word) : (s.placeCommand w).resetDone = true := rfl
@[simp] theorem State.placeCommand_schedule (w : Word) : (s.placeCommand w).schedule = .engine :: s.schedule := rfl
@[simp] theorem State.placeCommand_response (w : Word) : (s.placeCommand w).response = s.response := rfl
@[simp] theorem State.placeCommand_freeCtr (w : Word) : (s.placeCommand w).freeCtr = s.freeCtr := rfl

/-! #### `applyReset` -/

@[simp] theorem State.applyReset_regs : (s.applyReset).regs = Regs.reset := rfl
@[simp] theorem State.applyReset_busy : (s.applyReset).busy = false := rfl
@[simp] theorem State.applyReset_err : (s.applyReset).err = .ok := rfl
@[simp] theorem State.applyReset_ctx : (s.applyReset).ctx = Session.reset := rfl
@[simp] theorem State.applyReset_latch : (s.applyReset).latch = Latch.reset := rfl
@[simp] theorem State.applyReset_mem : (s.applyReset).mem = s.abandon.mem := rfl
@[simp] theorem State.applyReset_platform : (s.applyReset).platform = s.platform := rfl
@[simp] theorem State.applyReset_resetDone : (s.applyReset).resetDone = true := rfl
@[simp] theorem State.applyReset_schedule : (s.applyReset).schedule = s.schedule := rfl
@[simp] theorem State.applyReset_response : (s.applyReset).response = s.response := rfl
@[simp] theorem State.applyReset_freeCtr : (s.applyReset).freeCtr = s.abandon.freeCtr := rfl

/-! #### `withMem` -/

@[simp] theorem State.withMem_regs (a : Nat) (bs : List Byte) : (s.withMem a bs).regs = s.regs := rfl
@[simp] theorem State.withMem_busy (a : Nat) (bs : List Byte) : (s.withMem a bs).busy = s.busy := rfl
@[simp] theorem State.withMem_err (a : Nat) (bs : List Byte) : (s.withMem a bs).err = s.err := rfl
@[simp] theorem State.withMem_ctx (a : Nat) (bs : List Byte) : (s.withMem a bs).ctx = s.ctx := rfl
@[simp] theorem State.withMem_latch (a : Nat) (bs : List Byte) : (s.withMem a bs).latch = s.latch := rfl
@[simp] theorem State.withMem_mem (a : Nat) (bs : List Byte) : (s.withMem a bs).mem = s.mem.writeBytes a bs := rfl
@[simp] theorem State.withMem_platform (a : Nat) (bs : List Byte) : (s.withMem a bs).platform = s.platform := rfl
@[simp] theorem State.withMem_resetDone (a : Nat) (bs : List Byte) : (s.withMem a bs).resetDone = s.resetDone := rfl
@[simp] theorem State.withMem_schedule (a : Nat) (bs : List Byte) : (s.withMem a bs).schedule = s.schedule := rfl
@[simp] theorem State.withMem_response (a : Nat) (bs : List Byte) : (s.withMem a bs).response = s.response := rfl
@[simp] theorem State.withMem_freeCtr (a : Nat) (bs : List Byte) : (s.withMem a bs).freeCtr = s.freeCtr := rfl

end StateUpdates

section SessionUpdates
variable (c : Session)

/-! #### `enter` -/

@[simp] theorem Session.enter_h (p : Phase) : (c.enter p).h = c.h := rfl
@[simp] theorem Session.enter_t (p : Phase) : (c.enter p).t = c.t := rfl
@[simp] theorem Session.enter_f0 (p : Phase) : (c.enter p).f0 = c.f0 := rfl
@[simp] theorem Session.enter_f1 (p : Phase) : (c.enter p).f1 = c.f1 := rfl
@[simp] theorem Session.enter_buf (p : Phase) : (c.enter p).buf = c.buf := rfl
@[simp] theorem Session.enter_buflen (p : Phase) : (c.enter p).buflen = c.buflen := rfl
@[simp] theorem Session.enter_outlen (p : Phase) : (c.enter p).outlen = c.outlen := rfl
@[simp] theorem Session.enter_lastNode (p : Phase) : (c.enter p).lastNode = c.lastNode := rfl
@[simp] theorem Session.enter_phase (p : Phase) : (c.enter p).phase = p := rfl

/-! #### `flush` -/

@[simp] theorem Session.flush_h : (c.flush).h = compress c.h c.buf (advance c.t 128) 0 0 := rfl
@[simp] theorem Session.flush_t : (c.flush).t = advance c.t 128 := rfl
@[simp] theorem Session.flush_f0 : (c.flush).f0 = c.f0 := rfl
@[simp] theorem Session.flush_f1 : (c.flush).f1 = c.f1 := rfl
@[simp] theorem Session.flush_buf : (c.flush).buf = c.buf := rfl
@[simp] theorem Session.flush_buflen : (c.flush).buflen = 0 := rfl
@[simp] theorem Session.flush_outlen : (c.flush).outlen = c.outlen := rfl
@[simp] theorem Session.flush_lastNode : (c.flush).lastNode = c.lastNode := rfl
@[simp] theorem Session.flush_phase : (c.flush).phase = c.phase := rfl

/-! #### `push` -/

@[simp] theorem Session.push_h (b : Byte) : (c.push b).h = c.h := rfl
@[simp] theorem Session.push_t (b : Byte) : (c.push b).t = c.t := rfl
@[simp] theorem Session.push_f0 (b : Byte) : (c.push b).f0 = c.f0 := rfl
@[simp] theorem Session.push_f1 (b : Byte) : (c.push b).f1 = c.f1 := rfl
@[simp] theorem Session.push_buf (b : Byte) : (c.push b).buf = c.buf.setIfInBounds c.buflen b := rfl
@[simp] theorem Session.push_buflen (b : Byte) : (c.push b).buflen = c.buflen + 1 := rfl
@[simp] theorem Session.push_outlen (b : Byte) : (c.push b).outlen = c.outlen := rfl
@[simp] theorem Session.push_lastNode (b : Byte) : (c.push b).lastNode = c.lastNode := rfl
@[simp] theorem Session.push_phase (b : Byte) : (c.push b).phase = c.phase := rfl

/-! #### `finish` -/

@[simp] theorem Session.finish_h : (c.finish).h = compress c.h c.paddedBuf (advance c.t c.buflen) finalF0 (finalF1 c.lastNode) := rfl
@[simp] theorem Session.finish_t : (c.finish).t = advance c.t c.buflen := rfl
@[simp] theorem Session.finish_f0 : (c.finish).f0 = finalF0 := rfl
@[simp] theorem Session.finish_f1 : (c.finish).f1 = finalF1 c.lastNode := rfl
@[simp] theorem Session.finish_buf : (c.finish).buf = c.paddedBuf := rfl
@[simp] theorem Session.finish_buflen : (c.finish).buflen = c.buflen := rfl
@[simp] theorem Session.finish_outlen : (c.finish).outlen = c.outlen := rfl
@[simp] theorem Session.finish_lastNode : (c.finish).lastNode = c.lastNode := rfl
@[simp] theorem Session.finish_phase : (c.finish).phase = c.phase := rfl

end SessionUpdates

/-! #### `ctxInit` -/

section CtxInit
variable (pb : List Byte) (ln : Bool)

@[simp] theorem ctxInit_h : (ctxInit pb ln).h = seedChain pb := rfl
@[simp] theorem ctxInit_t : (ctxInit pb ln).t = 0 := rfl
@[simp] theorem ctxInit_f0 : (ctxInit pb ln).f0 = 0 := rfl
@[simp] theorem ctxInit_f1 : (ctxInit pb ln).f1 = 0 := rfl
@[simp] theorem ctxInit_buf : (ctxInit pb ln).buf = Vector.replicate 128 0 := rfl
@[simp] theorem ctxInit_buflen : (ctxInit pb ln).buflen = 0 := rfl
@[simp] theorem ctxInit_outlen : (ctxInit pb ln).outlen = (pb.getD 0 0).toNat := rfl
@[simp] theorem ctxInit_lastNode : (ctxInit pb ln).lastNode = ln := rfl
@[simp] theorem ctxInit_phase : (ctxInit pb ln).phase = .initialized := rfl

end CtxInit

/-! #### `loadKey` -/

section LoadKey
variable (c : Session) (key : List Byte)

@[simp] theorem Session.loadKey_h : (c.loadKey key).h = c.h := by
  simp only [Session.loadKey]; split <;> rfl
@[simp] theorem Session.loadKey_t : (c.loadKey key).t = c.t := by
  simp only [Session.loadKey]; split <;> rfl
@[simp] theorem Session.loadKey_f0 : (c.loadKey key).f0 = c.f0 := by
  simp only [Session.loadKey]; split <;> rfl
@[simp] theorem Session.loadKey_f1 : (c.loadKey key).f1 = c.f1 := by
  simp only [Session.loadKey]; split <;> rfl
@[simp] theorem Session.loadKey_outlen : (c.loadKey key).outlen = c.outlen := by
  simp only [Session.loadKey]; split <;> rfl
@[simp] theorem Session.loadKey_lastNode : (c.loadKey key).lastNode = c.lastNode := by
  simp only [Session.loadKey]; split <;> rfl
@[simp] theorem Session.loadKey_phase : (c.loadKey key).phase = c.phase := by
  simp only [Session.loadKey]; split <;> rfl
theorem Session.loadKey_buflen :
    (c.loadKey key).buflen = if 0 < key.length then 128 else c.buflen := by
  simp only [Session.loadKey]; split <;> rfl
theorem Session.loadKey_buf :
    (c.loadKey key).buf = if 0 < key.length then padTo 128 key else c.buf := by
  simp only [Session.loadKey]; split <;> rfl
@[simp] theorem Session.loadKey_nil : c.loadKey [] = c := rfl

end LoadKey

/-! #### The reset state -/

section Reset
variable (p : Platform)

@[simp] theorem State.resetOn_regs : (State.resetOn p).regs = Regs.reset := rfl
@[simp] theorem State.resetOn_busy : (State.resetOn p).busy = false := rfl
@[simp] theorem State.resetOn_err : (State.resetOn p).err = .ok := rfl
@[simp] theorem State.resetOn_ctx : (State.resetOn p).ctx = Session.reset := rfl
@[simp] theorem State.resetOn_latch : (State.resetOn p).latch = Latch.reset := rfl
@[simp] theorem State.resetOn_mem : (State.resetOn p).mem = [] := rfl
@[simp] theorem State.resetOn_platform : (State.resetOn p).platform = p := rfl
@[simp] theorem State.resetOn_resetDone : (State.resetOn p).resetDone = true := rfl
@[simp] theorem State.resetOn_schedule : (State.resetOn p).schedule = [] := rfl
@[simp] theorem State.resetOn_response : (State.resetOn p).response = none := rfl
@[simp] theorem State.resetOn_freeCtr : (State.resetOn p).freeCtr = 0 := rfl

end Reset

end Sys2Proof.Machine
end

