-- ==== Sys2Proof/Laws/Bytes.lean ====
section
/-!
SUPPORT. The laws of byte strings and little-endian conversions (spec/00_scope.md rule R7).
-/

namespace Sys2Proof.Machine

@[simp] theorem zeros_length (n : Nat) : (zeros n).length = n := by simp [zeros]

@[simp] theorem bytes64_length (x : Word) : (bytes64 x).length = 8 := by simp [bytes64]

@[simp] theorem bytes32_length (x : BitVec 32) : (bytes32 x).length = 4 := by simp [bytes32]

@[simp] theorem padTo_getElem (n : Nat) (bs : List Byte) (i : Nat) (h : i < n) :
    (padTo n bs)[i] = bs.getD i 0 := by
  simp [padTo]

theorem leNat_lt (bs : List Byte) : leNat bs < 256 ^ bs.length := by
  induction bs with
  | nil => simp [leNat]
  | cons b bs ih =>
    have := b.isLt
    simp only [leNat, List.length_cons, pow_succ]
    omega

/-- Digit `k` of the number is byte `k`. -/
theorem leNat_digit (bs : List Byte) (k : Nat) : leNat bs / 256 ^ k % 256 = (bs.getD k 0).toNat := by
  induction bs generalizing k with
  | nil => simp [leNat]
  | cons b bs ih =>
    have hb := b.isLt
    cases k with
    | zero => simp only [leNat, pow_zero, Nat.div_one, List.getD_cons_zero]; omega
    | succ k =>
      rw [List.getD_cons_succ, ← ih k, leNat, pow_succ', ← Nat.div_div_eq_div_mul]
      congr 2
      omega

/-- A byte string is determined by its length and its number. -/
theorem leNat_inj (as bs : List Byte) (hl : as.length = bs.length) (h : leNat as = leNat bs) : as = bs := by
  refine List.ext_getElem hl fun i h1 h2 => ?_
  have ha := leNat_digit as i
  rw [h, leNat_digit bs i] at ha
  have := BitVec.eq_of_toNat_eq ha
  simpa [List.getD_eq_getElem, h1, h2] using this.symm

/-- Byte `k` of a word is its base-256 digit `k`. -/
theorem byteOf_toNat {w : Nat} (x : BitVec w) (k : Nat) : (byteOf x k).toNat = x.toNat / 256 ^ k % 256 := by
  simp only [byteOf, BitVec.extractLsb'_toNat, Nat.shiftRight_eq_div_pow]
  rw [show (256 : Nat) = 2 ^ 8 by rfl, ← pow_mul]

theorem leNat_byteOf {w : Nat} (x : BitVec w) (n : Nat) :
    leNat ((List.range n).map (byteOf x)) = x.toNat % 256 ^ n := by
  induction n generalizing w with
  | zero => simp [leNat, Nat.mod_one]
  | succ n ih =>
    have hshift : (List.range n).map (fun k => byteOf x (k + 1)) =
        (List.range n).map (byteOf (BitVec.ofNat w (x.toNat / 256))) := by
      refine List.map_congr_left fun k _ => BitVec.eq_of_toNat_eq ?_
      have hx : x.toNat / 256 < 2 ^ w := Nat.lt_of_le_of_lt (Nat.div_le_self _ _) x.isLt
      rw [byteOf_toNat, byteOf_toNat, BitVec.toNat_ofNat, Nat.mod_eq_of_lt hx, pow_succ', ← Nat.div_div_eq_div_mul]
    have hx : x.toNat / 256 < 2 ^ w := Nat.lt_of_le_of_lt (Nat.div_le_self _ _) x.isLt
    rw [List.range_succ_eq_map, List.map_cons, List.map_map, leNat]
    have hc : byteOf x ∘ Nat.succ = fun k => byteOf x (k + 1) := rfl
    rw [hc, hshift, ih, byteOf_toNat, BitVec.toNat_ofNat, Nat.mod_eq_of_lt hx, pow_zero, Nat.div_one, pow_succ',
      Nat.mod_mul]

/-- `LE64` reads back what `bytes64` wrote. -/
@[simp] theorem le64_bytes64 (x : Word) : le64 (bytes64 x) 0 = x := by
  have h := leNat_byteOf x 8
  have hx := x.isLt
  simp only [le64, List.drop_zero]
  rw [List.take_of_length_le (by simp)]
  simp only [bytes64]
  rw [h, Nat.mod_eq_of_lt (by omega)]
  simp

theorem decodeBytes_bytes64 (w : Word) (i : Instr) (h : decodeCommand w = .ok i) :
    decodeBytes (bytes64 w) = .ok (i, []) := by
  simp [decodeBytes, h, Except.map, List.drop_of_length_le]

/-- The host's numbering gives the decoder's answer on the word itself. -/
theorem decodeTableWord_eq (w : Word) :
    decodeTableWord 64 w.toNat = (decodeCommand w).toOption := by
  have hw : w.toNat % 2 ^ 64 = w.toNat := Nat.mod_eq_of_lt w.isLt
  have ht : tableWord 64 w.toNat = w := by
    rw [tableWord, hw]
    simp
  simp only [decodeTableWord, hw, w.isLt, if_true, ht]
  cases h : decodeCommand w with
  | error e => simp [decodeBytes, h, Except.map, Except.toOption]
  | ok i => simp [decodeBytes_bytes64 w i h, Except.toOption]

theorem bytesOfWords_length {n : Nat} (ws : Vector Word n) : (bytesOfWords ws).length = 8 * n := by
  simp [bytesOfWords, List.length_flatMap, Nat.mul_comm]

@[simp] theorem digest_length (c : Session) : c.digest.length = 64 := bytesOfWords_length c.h

end Sys2Proof.Machine
end

