-- ==== Sys2Proof/Laws/PerInstr.lean ====
section
/-!
SUPPORT. The statements made per instruction. `EncodeRow`: the word of a command agrees with the bits that its row of the
match and mask table fixes (spec/30_encoding.md rule R59).
-/

namespace Sys2Proof.Laws

/-- The row of the table a command belongs to (R58). -/
def opcodeOf : Instr → Opcode
  | .init _ _ _ _ => .init
  | .initParams _ => .initParams
  | .update => .update
  | .final _ => .final
  | .hash _ _ _ _ => .hash
  | .hashLong => .hashLong

/-- The word of the command matches a row of its opcode in the match and mask table (R59). -/
def EncodeRow.Statement (i : Instr) : Prop :=
  ∃ r ∈ opTable, r.op = opcodeOf i ∧ r.matches (encode i) = true

theorem masked_fields (op : BitVec 4) (o k : BitVec 7) (s p : BitVec 5) :
    encodeFields op o k s p false &&& 0xFFFFFFFFF000000F = op.setWidth 64 := by
  ext i hi
  simp only [encodeFields, BitVec.getElem_and, BitVec.getElem_or, BitVec.getElem_setWidth, BitVec.getElem_shiftLeft]
  interval_cases i <;> simp

theorem masked_outlen (op : BitVec 4) (o : BitVec 7) :
    encodeFields op o 0 0 0 false &&& 0xFFFFFFFFFFFFF80F = op.setWidth 64 := by
  ext i hi
  simp only [encodeFields, BitVec.getElem_and, BitVec.getElem_or, BitVec.getElem_setWidth, BitVec.getElem_shiftLeft]
  interval_cases i <;> simp

theorem EncodeRow.init (o k : BitVec 7) (s p : BitVec 5) : EncodeRow.Statement (.init o k s p) :=
  ⟨_, .head _, rfl, by simp only [OpRow.matches, encode]; rw [masked_fields]; decide⟩

theorem EncodeRow.initParams (ln : Bool) : EncodeRow.Statement (.initParams ln) :=
  ⟨_, .tail _ (.head _), rfl, by cases ln <;> decide⟩

theorem EncodeRow.update : EncodeRow.Statement .update :=
  ⟨_, .tail _ (.tail _ (.head _)), rfl, by decide⟩

theorem EncodeRow.final (o : BitVec 7) : EncodeRow.Statement (.final o) :=
  ⟨_, .tail _ (.tail _ (.tail _ (.head _))), rfl, by simp only [OpRow.matches, encode]; rw [masked_outlen]; decide⟩

theorem EncodeRow.hash (o k : BitVec 7) (s p : BitVec 5) : EncodeRow.Statement (.hash o k s p) :=
  ⟨_, .tail _ (.tail _ (.tail _ (.tail _ (.head _)))), rfl,
    by simp only [OpRow.matches, encode]; rw [masked_fields]; decide⟩

theorem EncodeRow.hashLong : EncodeRow.Statement .hashLong :=
  ⟨_, .tail _ (.tail _ (.tail _ (.tail _ (.tail _ (.head _))))), rfl, by decide⟩

end Sys2Proof.Laws
end

