-- ==== Sys2Proof/Laws/Decode.lean ====
section
/-!
SUPPORT. The fields of an encoded command word (spec/30_encoding.md rules R56, R60), and the row a word's low bits rule
out (R59).
-/

namespace Sys2Proof.Laws

@[simp] theorem fieldOutlen_encode (op : BitVec 4) (o k : BitVec 7) (s p : BitVec 5) (ln : Bool) :
    fieldOutlen (encodeFields op o k s p ln) = o := by
  ext i hi
  simp only [fieldOutlen, field, encodeFields, BitVec.getElem_extractLsb', BitVec.getLsbD_or, BitVec.getLsbD_setWidth,
    BitVec.getLsbD_shiftLeft]
  interval_cases i <;> simp [BitVec.getLsbD_eq_getElem]

@[simp] theorem fieldKeylen_encode (op : BitVec 4) (o k : BitVec 7) (s p : BitVec 5) (ln : Bool) :
    fieldKeylen (encodeFields op o k s p ln) = k := by
  ext i hi
  simp only [fieldKeylen, field, encodeFields, BitVec.getElem_extractLsb', BitVec.getLsbD_or, BitVec.getLsbD_setWidth,
    BitVec.getLsbD_shiftLeft]
  interval_cases i <;> simp [BitVec.getLsbD_eq_getElem]

@[simp] theorem fieldSaltlen_encode (op : BitVec 4) (o k : BitVec 7) (s p : BitVec 5) (ln : Bool) :
    fieldSaltlen (encodeFields op o k s p ln) = s := by
  ext i hi
  simp only [fieldSaltlen, field, encodeFields, BitVec.getElem_extractLsb', BitVec.getLsbD_or, BitVec.getLsbD_setWidth,
    BitVec.getLsbD_shiftLeft]
  interval_cases i <;> simp [BitVec.getLsbD_eq_getElem]

@[simp] theorem fieldPerslen_encode (op : BitVec 4) (o k : BitVec 7) (s p : BitVec 5) (ln : Bool) :
    fieldPerslen (encodeFields op o k s p ln) = p := by
  ext i hi
  simp only [fieldPerslen, field, encodeFields, BitVec.getElem_extractLsb', BitVec.getLsbD_or, BitVec.getLsbD_setWidth,
    BitVec.getLsbD_shiftLeft]
  interval_cases i <;> simp [BitVec.getLsbD_eq_getElem]

/-- The low four bits of an encoded word are its opcode, whatever the other fields hold. -/
theorem masked_op (op : BitVec 4) (o k : BitVec 7) (s p : BitVec 5) (ln : Bool) :
    encodeFields op o k s p ln &&& 0xF = op.setWidth 64 := by
  ext i hi
  simp only [encodeFields, BitVec.getElem_and, BitVec.getElem_or, BitVec.getElem_setWidth, BitVec.getElem_shiftLeft]
  interval_cases i <;> simp

/-- A row that fixes the opcode does not match a word with another opcode. -/
theorem not_matches_of_op (r : OpRow) (w : Word) (hm : r.mask &&& 0xF = 0xF) (h : w &&& 0xF ≠ r.pattern &&& 0xF) :
    r.matches w = false := by
  by_contra hc
  simp only [OpRow.matches, Bool.not_eq_false, beq_iff_eq] at hc
  exact h (by rw [← hc, BitVec.and_assoc, hm])

end Sys2Proof.Laws
end

