-- ==== Sys2Proof/Laws/Memory.lean ====
section
/-!
SUPPORT. The laws of host memory (spec/20_memory.md rules R41, R42): a read after a write, every other place unchanged,
the canonical form kept, and the same for byte strings.
-/

namespace Sys2Proof.Machine

/-! ### One byte -/

theorem Memory.read_of_lt (m : Memory) (a : Nat) (h : ∀ c ∈ m, a < c.1) : m.read a = Memory.unlisted := by
  induction m with
  | nil => rfl
  | cons c m ih =>
    have hc : a < c.1 := h c (by simp)
    simp only [Memory.read, if_neg (Nat.ne_of_lt hc)]
    exact ih fun d hd => h d (by simp [hd])

theorem Memory.read_write_other (m : Memory) (a b : Nat) (v : Byte) (h : b ≠ a) :
    (m.write a v).read b = m.read b := by
  induction m with
  | nil => simp only [Memory.write]; split <;> simp [Memory.read, h]
  | cons c m ih =>
    obtain ⟨k, w⟩ := c
    simp only [Memory.write]
    split
    · split <;> simp [Memory.read, h]
    · split
      · rename_i hk
        split <;> simp [Memory.read, ← hk, h]
      · simp [Memory.read, ih]

theorem Memory.read_write_same (m : Memory) (a : Nat) (v : Byte) (hm : m.wf) : (m.write a v).read a = v := by
  induction m with
  | nil => simp only [Memory.write]; split <;> simp_all [Memory.read]
  | cons c m ih =>
    obtain ⟨k, w⟩ := c
    obtain ⟨hs, hn⟩ := hm
    rw [List.pairwise_cons] at hs
    have hlow : a ≤ k → Memory.read m a = Memory.unlisted := fun hk =>
      Memory.read_of_lt m a fun d hd => Nat.lt_of_le_of_lt hk (hs.1 d hd)
    simp only [Memory.write]
    split
    · rename_i hlt
      split
      · simp_all [Memory.read, Nat.ne_of_lt hlt, hlow (Nat.le_of_lt hlt)]
      · simp [Memory.read]
    · split
      · rename_i hk
        split
        · simp_all
        · simp [Memory.read]
      · rename_i h1 h2
        simp only [Memory.read, if_neg h2]
        exact ih ⟨hs.2, fun d hd => hn d (by simp [hd])⟩

theorem Memory.mem_write (m : Memory) (a : Nat) (v : Byte) (c : Host.Cell) (h : c ∈ m.write a v) :
    c ∈ m ∨ (c = (a, v) ∧ v ≠ Memory.unlisted) := by
  induction m with
  | nil => simp only [Memory.write] at h; split at h <;> simp_all
  | cons d m ih =>
    obtain ⟨k, w⟩ := d
    simp only [Memory.write] at h
    split at h
    · split at h
      · exact .inl h
      · rcases List.mem_cons.mp h with h | h
        · exact .inr ⟨h, by assumption⟩
        · exact .inl h
    · split at h
      · split at h
        · exact .inl (List.mem_cons_of_mem _ h)
        · rcases List.mem_cons.mp h with h | h
          · exact .inr ⟨h, by assumption⟩
          · exact .inl (List.mem_cons_of_mem _ h)
      · rcases List.mem_cons.mp h with h | h
        · exact .inl (by simp [h])
        · exact (ih h).imp (List.mem_cons_of_mem _) id

/-- Every write keeps the canonical form. -/
theorem Memory.write_wf (m : Memory) (a : Nat) (v : Byte) (hm : m.wf) : (m.write a v).wf := by
  refine ⟨?_, fun c hc => ?_⟩
  · induction m with
    | nil => simp only [Memory.write]; split <;> simp
    | cons d m ih =>
      obtain ⟨k, w⟩ := d
      obtain ⟨hs, hn⟩ := hm
      have hs' := List.pairwise_cons.mp hs
      simp only [Memory.write]
      split
      · rename_i hlt
        split
        · exact hs
        · refine List.pairwise_cons.mpr ⟨fun c hc => ?_, hs⟩
          rcases List.mem_cons.mp hc with rfl | hc
          · exact hlt
          · exact Nat.lt_trans hlt (hs'.1 c hc)
      · split
        · rename_i hk
          split
          · exact hs'.2
          · exact List.pairwise_cons.mpr ⟨fun c hc => hk ▸ hs'.1 c hc, hs'.2⟩
        · refine List.pairwise_cons.mpr ⟨fun c hc => ?_, ih ⟨hs'.2, fun c hc => hn c (by simp [hc])⟩⟩
          rcases Memory.mem_write m a v c hc with hc | ⟨rfl, -⟩
          · exact hs'.1 c hc
          · show k < a
            omega
  · rcases Memory.mem_write m a v c hc with hc | ⟨rfl, hv⟩
    · exact hm.2 c hc
    · exact hv

theorem Memory.write_inSpace (m : Memory) (a : Nat) (v : Byte) (hm : m.inSpace) (ha : a < Config.memSize) :
    (m.write a v).inSpace := fun c hc => by
  rcases Memory.mem_write m a v c hc with hc | ⟨rfl, -⟩
  · exact hm c hc
  · exact ha

/-- Two memories in canonical form that read alike are the same data. -/
theorem Memory.ext_read (m n : Memory) (hm : m.wf) (hn : n.wf) (h : ∀ a, m.read a = n.read a) : m = n := by
  induction m generalizing n with
  | nil =>
    cases n with
    | nil => rfl
    | cons d n =>
      have := h d.1
      simp only [Memory.read, if_pos] at this
      exact absurd this.symm (hn.2 d (by simp))
  | cons c m ih =>
    cases n with
    | nil =>
      have := h c.1
      simp only [Memory.read, if_pos] at this
      exact absurd this (hm.2 c (by simp))
    | cons d n =>
      obtain ⟨k, v⟩ := c
      obtain ⟨l, w⟩ := d
      have hs := List.pairwise_cons.mp hm.1
      have ht := List.pairwise_cons.mp hn.1
      have hkl : k = l := by
        rcases Nat.lt_trichotomy k l with hlt | heq | hlt
        · have := h k
          rw [Memory.read_of_lt ((l, w) :: n) k] at this
          · simp only [Memory.read, if_pos] at this
            exact absurd this (hm.2 (k, v) (by simp))
          · intro e he
            rcases List.mem_cons.mp he with rfl | he
            · exact hlt
            · exact Nat.lt_trans hlt (ht.1 e he)
        · exact heq
        · have := h l
          rw [Memory.read_of_lt ((k, v) :: m) l] at this
          · simp only [Memory.read, if_pos] at this
            exact absurd this.symm (hn.2 (l, w) (by simp))
          · intro e he
            rcases List.mem_cons.mp he with rfl | he
            · exact hlt
            · exact Nat.lt_trans hlt (hs.1 e he)
      subst hkl
      have hvw : v = w := by simpa [Memory.read] using h k
      subst hvw
      congr 1
      refine ih n ⟨hs.2, fun e he => hm.2 e (by simp [he])⟩ ⟨ht.2, fun e he => hn.2 e (by simp [he])⟩ fun a => ?_
      by_cases ha : a = k
      · subst ha
        rw [Memory.read_of_lt m a fun e he => hs.1 e he, Memory.read_of_lt n a fun e he => ht.1 e he]
      · simpa [Memory.read, ha] using h a

/-! ### Byte strings -/

@[simp] theorem Memory.readBytes_length (m : Memory) (a n : Nat) : (m.readBytes a n).length = n := by
  simp [Memory.readBytes]

@[simp] theorem Memory.readBytes_zero (m : Memory) (a : Nat) : m.readBytes a 0 = [] := rfl

theorem Memory.readBytes_getElem (m : Memory) (a n i : Nat) (h : i < (m.readBytes a n).length) :
    (m.readBytes a n)[i] = m.read (a + i) := by
  simp [Memory.readBytes]

theorem Memory.readBytes_add (m : Memory) (a n k : Nat) :
    m.readBytes a (n + k) = m.readBytes a n ++ m.readBytes (a + n) k := by
  simp [Memory.readBytes, List.range_add, Nat.add_assoc]

/-- Memories that read alike on a range give the same bytes. -/
theorem Memory.readBytes_congr (m m' : Memory) (a n : Nat) (h : ∀ i < n, m.read (a + i) = m'.read (a + i)) :
    m.readBytes a n = m'.readBytes a n := by
  simp only [Memory.readBytes]
  exact List.map_congr_left fun i hi => h i (List.mem_range.mp hi)

@[simp] theorem Memory.writeBytes_nil (m : Memory) (a : Nat) : m.writeBytes a [] = m := rfl

theorem Memory.writeBytes_wf (m : Memory) (a : Nat) (bs : List Byte) (hm : m.wf) : (m.writeBytes a bs).wf := by
  induction bs generalizing m a with
  | nil => exact hm
  | cons b bs ih => exact ih _ _ (Memory.write_wf m a b hm)

theorem Memory.writeBytes_inSpace (m : Memory) (a : Nat) (bs : List Byte) (hm : m.inSpace)
    (ha : a + bs.length ≤ Config.memSize) : (m.writeBytes a bs).inSpace := by
  induction bs generalizing m a with
  | nil => exact hm
  | cons b bs ih =>
    rw [List.length_cons] at ha
    exact ih _ _ (Memory.write_inSpace m a b hm (by omega)) (by omega)

/-- Bytes outside the written range read as before. -/
theorem Memory.read_writeBytes_other (m : Memory) (a b : Nat) (bs : List Byte)
    (h : b < a ∨ a + bs.length ≤ b) : (m.writeBytes a bs).read b = m.read b := by
  induction bs generalizing m a with
  | nil => rfl
  | cons v bs ih =>
    rw [List.length_cons] at h
    rw [Memory.writeBytes, ih _ _ (by omega), Memory.read_write_other _ _ _ _ (by omega)]

/-- A byte inside the written range reads as the byte written there. -/
theorem Memory.read_writeBytes_same (m : Memory) (a i : Nat) (bs : List Byte) (hm : m.wf) (h : i < bs.length) :
    (m.writeBytes a bs).read (a + i) = bs[i] := by
  induction bs generalizing m a i with
  | nil => simp at h
  | cons v bs ih =>
    rw [Memory.writeBytes]
    cases i with
    | zero =>
      rw [Memory.read_writeBytes_other _ _ _ _ (by omega), Nat.add_zero]
      simpa using Memory.read_write_same m a v hm
    | succ i =>
      have := ih (m.write a v) (a + 1) i (Memory.write_wf m a v hm) (by simpa using h)
      rw [show a + (i + 1) = a + 1 + i by omega, this]
      simp

/-! ### Ranges -/

@[simp] theorem Platform.admits_zero (p : Platform) (a : Nat) : p.admits ⟨a, 0⟩ = true := by
  simp [Platform.admits]

/-- An admitted range lies in the address space unless it is empty. -/
theorem Platform.admits_bound (p : Platform) (r : Range) (h : p.admits r = true) (hr : r.len ≠ 0) :
    r.addr + r.len ≤ Config.memSize := by
  simp only [Platform.admits, Bool.or_eq_true, beq_iff_eq, Bool.and_eq_true, decide_eq_true_eq] at h
  rcases h with h | h
  · exact absurd h hr
  · exact h.1

end Sys2Proof.Machine
end

