-- ==== Sys2Proof/Laws/Engine.lean ====
section
/-!
SUPPORT. What the machine's steps can do, said once: the check, the end of a command, the meanings through `exec`, and
the moves of a step.
-/

namespace Sys2Proof.Machine

/-! ### The check (R96) -/

@[simp] theorem firstError_nil : firstError [] = .ok := rfl

@[simp] theorem firstError_cons (b : Bool) (e : ErrCode) (rest : List (Bool × ErrCode)) :
    firstError ((b, e) :: rest) = if b then e else firstError rest := rfl

/-- A list of tests passes when no test applies, if every test names an error. -/
theorem firstError_eq_ok (l : List (Bool × ErrCode)) (hl : ∀ x ∈ l, x.2 ≠ .ok) :
    firstError l = .ok ↔ ∀ x ∈ l, x.1 = false := by
  induction l with
  | nil => simp
  | cons x l ih =>
    obtain ⟨b, e⟩ := x
    have he : e ≠ .ok := hl (b, e) (by simp)
    cases b
    · simpa using ih fun x hx => hl x (by simp [hx])
    · simp [he]

theorem checkInit_ok (s : State) (o k : BitVec 7) (sl pl : BitVec 5) :
    s.checkInit o k sl pl = .ok ↔
      badLengths sl pl = false ∧ badOutlen o = false ∧ badKeylen k = false ∧
        s.rangeFault (.init o k sl pl) = false := by
  rw [State.checkInit, firstError_eq_ok _ (by simp)]
  simp

theorem checkUpdate_ok (s : State) :
    s.checkUpdate = .ok ↔ s.ctx.phase.closed = false ∧ s.rangeFault .update = false := by
  rw [State.checkUpdate, firstError_eq_ok _ (by simp)]
  simp

theorem checkFinal_ok (s : State) (o : BitVec 7) :
    s.checkFinal o = .ok ↔
      s.ctx.phase.closed = false ∧ o.toNat = s.ctx.outlen ∧ s.rangeFault (.final o) = false := by
  rw [State.checkFinal, firstError_eq_ok _ (by simp)]
  simp

theorem checkHash_ok (s : State) (o k : BitVec 7) (sl pl : BitVec 5) :
    s.checkHash o k sl pl = .ok ↔
      badLengths sl pl = false ∧ badOutlen o = false ∧ badKeylen k = false ∧
        s.rangeFault (.hash o k sl pl) = false := by
  rw [State.checkHash, firstError_eq_ok _ (by simp)]
  simp

theorem checkHashLong_ok (s : State) :
    s.checkHashLong = .ok ↔ s.latch.longLen ≠ 0 ∧ s.rangeFault .hashLong = false := by
  rw [State.checkHashLong, firstError_eq_ok _ (by simp)]
  simp

theorem badOutlen_eq_false (o : BitVec 7) : badOutlen o = false ↔ 1 ≤ o.toNat ∧ o.toNat ≤ 64 := by
  have : (o == 0) = decide (o.toNat = 0) := by
    by_cases h : o = 0
    · simp [h]
    · have : o.toNat ≠ 0 := fun hn => h (BitVec.eq_of_toNat_eq (by simpa using hn))
      rw [decide_eq_false this]
      exact beq_false_of_ne h
  simp only [badOutlen, this, Bool.or_eq_false_iff, decide_eq_false_iff_not]
  omega

theorem badKeylen_eq_false (k : BitVec 7) : badKeylen k = false ↔ k.toNat ≤ 64 := by
  simp [badKeylen]

theorem badLengths_eq_false (sl pl : BitVec 5) : badLengths sl pl = false ↔ sl.toNat ≤ 16 ∧ pl.toNat ≤ 16 := by
  simp [badLengths, saltlenLegal, perslenLegal]

theorem rangeFault_eq_false (s : State) (i : Instr) :
    s.rangeFault i = false ↔ ∀ r ∈ s.ranges i, s.platform.admits r = true := by
  simp [State.rangeFault, Platform.admitsAll, List.all_eq_true]

/-- A session is open exactly in phases Initialized and Absorbing. -/
theorem closed_eq_false (p : Phase) : p.closed = false ↔ Safety.Open p := by
  cases p <;> simp [Phase.closed, Safety.Open]

/-! ### The output of a command -/

/-- A command's output keeps memory in its canonical form, and in the address space if its range is admitted. -/
theorem storeOutput_inv (s : State) (bs : List Byte) (h : s.mem.wf) (hs : s.mem.inSpace)
    (ha : s.platform.admits ⟨s.latch.dst.toNat, bs.length⟩ = true) :
    (s.storeOutput bs).wf ∧ (s.storeOutput bs).inSpace := by
  refine ⟨Memory.writeBytes_wf _ _ _ h, ?_⟩
  by_cases hn : bs.length = 0
  · rw [List.length_eq_zero_iff] at hn
    subst hn
    exact hs
  · exact Memory.writeBytes_inSpace _ _ _ hs (Platform.admits_bound _ _ ha hn)

@[simp] theorem freeBytes_length (ctr n : Nat) : (freeBytes ctr n).length = n := by simp [freeBytes]

/-- Drawing a range's bytes keeps memory in its canonical form and in the address space. -/
theorem scramble_inv (s : State) (r : Range) (h : s.mem.wf) (hs : s.mem.inSpace) :
    (s.scramble r).mem.wf ∧ (s.scramble r).mem.inSpace := by
  refine ⟨Memory.writeBytes_wf _ _ _ h, ?_⟩
  simp only [State.scramble]
  by_cases hn : min r.len (Config.memSize - r.addr) = 0
  · rw [hn]
    exact hs
  · exact Memory.writeBytes_inSpace _ _ _ hs (by rw [freeBytes_length]; omega)

/-! ### The end of a command (R94, R97) -/

/-- A command always ends in a next state (R94): with the error of its check, or with the state it leaves. -/
theorem conclude_cases (s : State) (e : ErrCode) (t : State) :
    (e = .ok ∧ s.conclude e t = .next t.complete) ∨ (e ≠ .ok ∧ s.conclude e t = .next (s.raise e)) := by
  by_cases h : e = .ok
  · exact .inl ⟨h, by simp [State.conclude, h]⟩
  · exact .inr ⟨h, by simp [State.conclude, h]⟩

theorem conclude_ok (s t : State) : s.conclude .ok t = .next t.complete := rfl

theorem conclude_error (s t : State) (e : ErrCode) (h : e ≠ .ok) : s.conclude e t = .next (s.raise e) := by
  simp [State.conclude, h]

/-! ### The meanings through `exec` -/

/-- The session and the memory that the execution of a command leaves when its check passes (R94). -/
def effectCtx (i : Instr) (s : State) : Session :=
  match i with
  | .init o k sl pl => startSession o.toNat (s.keyBytes k) (s.saltBytes sl) (s.persBytes pl)
  | .initParams ln => ctxInit s.latch.pb.toList ln
  | .update => (s.ctx.absorb s.messageBytes).enter .absorbing
  | .final _ => s.ctx.finish.enter .finalized
  | .hash o k sl pl => (s.hashOperands o k sl pl).enter .finalized
  | .hashLong => (hashLongOutput s.latch.longLen s.messageBytes).1.enter .finalized

@[inherit_doc effectCtx] def effectMem (i : Instr) (s : State) : Memory :=
  match i with
  | .init _ _ _ _ => s.mem
  | .initParams _ => s.mem
  | .update => s.mem
  | .final _ => s.storeOutput (s.ctx.finish.digest.take s.ctx.outlen)
  | .hash o k sl pl => s.storeOutput ((s.hashOperands o k sl pl).digest.take o.toNat)
  | .hashLong => s.storeOutput (hashLongOutput s.latch.longLen s.messageBytes).2

/-- Everything a command can do: it ends by its check, and what it changes is the session and the memory. -/
theorem exec_eq (i : Instr) (s : State) :
    exec i s = s.conclude (s.check i) { s with ctx := effectCtx i s, mem := effectMem i s } := by
  cases i <;> rfl

/-- The two ways a command ends. -/
theorem exec_cases (i : Instr) (s : State) :
    (s.check i = .ok ∧
        exec i s = .next { s with ctx := effectCtx i s, mem := effectMem i s, err := .ok, busy := false }) ∨
      (s.check i ≠ .ok ∧ exec i s = .next (s.raise (s.check i))) := by
  rw [exec_eq]
  exact conclude_cases s (s.check i) _

theorem exec_next {i : Instr} {s t : State} (h : exec i s = .next t) :
    (s.check i = .ok ∧ t = { s with ctx := effectCtx i s, mem := effectMem i s, err := .ok, busy := false }) ∨
      (s.check i ≠ .ok ∧ t = s.raise (s.check i)) := by
  rcases exec_cases i s with ⟨hc, he⟩ | ⟨hc, he⟩
  · rw [h] at he
    exact .inl ⟨hc, by injection he⟩
  · rw [h] at he
    exact .inr ⟨hc, by injection he⟩

/-! ### The moves of a step -/

/-- What an engine move can do, when it makes a step: nothing (idle), an illegal word, or a command. -/
theorem engineMove_next {s t : State} (h : s.engineMove = .next t) :
    s.resetDone = true ∧
      ((s.busy = false ∧ t = s) ∨
        (s.busy = true ∧ (∃ e, decodeCommand s.latch.cmd = .error e) ∧ t = s.raise .illegalCommand) ∨
        (s.busy = true ∧ ∃ i, decodeCommand s.latch.cmd = .ok i ∧ exec i s = .next t)) := by
  simp only [State.engineMove] at h
  split at h
  · rename_i hr
    refine ⟨hr, ?_⟩
    split at h
    · rename_i hb
      simp only [State.completeCommand] at h
      split at h
      · exact .inr (.inr ⟨hb, _, by assumption, h⟩)
      · injection h with h
        exact .inr (.inl ⟨hb, ⟨_, by assumption⟩, h.symm⟩)
    · rename_i hb
      injection h with h
      exact .inl ⟨by simpa using hb, h.symm⟩
  · cases h

/-- What a host access can do, when it makes a step. -/
theorem hostAccess_next {s t : State} {a : Access} (h : s.hostAccess a = .next t) :
    (∃ r, t = { s with response := r }) ∨
      (∃ k v, t = s.writeSlot k v) ∨
      (∃ addr bytes, addr + bytes.length ≤ Config.memSize ∧ t = { s with mem := s.mem.writeBytes addr bytes }) := by
  cases a with
  | regLoad addr width =>
    simp only [State.hostAccess] at h
    split at h
    · cases h
    · injection h with h
      exact .inl ⟨_, h.symm⟩
  | regStore addr width value =>
    simp only [State.hostAccess] at h
    split at h
    · cases h
    · injection h with h
      exact .inr (.inl ⟨_, _, h.symm⟩)
  | memLoad addr len =>
    simp only [State.hostAccess] at h
    split at h
    · cases h
    · split at h
      · cases h
      · injection h with h
        exact .inl ⟨_, h.symm⟩
  | memStore addr bytes =>
    simp only [State.hostAccess] at h
    split at h
    · cases h
    · split at h
      · cases h
      · injection h with h
        exact .inr (.inr ⟨_, _, by omega, h.symm⟩)

/-- What a step can do, when it makes one: the engine's move, a reset, or a host access of a machine that has been
reset. -/
theorem step_next {s t : State} (h : step s = .next t) :
    (s.nextMove = .engine ∧ s.popMove.engineMove = .next t) ∨
      (s.nextMove = .reset ∧ t = s.popMove.applyReset) ∨
      (∃ a, s.nextMove = .host a ∧ s.resetDone = true ∧ s.popMove.hostAccess a = .next t) := by
  simp only [step] at h
  cases hm : s.nextMove with
  | engine => rw [hm] at h; exact .inl ⟨rfl, h⟩
  | reset =>
    rw [hm] at h
    simp only [State.runMove] at h
    injection h with h
    exact .inr (.inl ⟨rfl, h.symm⟩)
  | host a =>
    rw [hm] at h
    simp only [State.runMove] at h
    split at h
    · exact .inr (.inr ⟨a, rfl, by assumption, h⟩)
    · cases h

end Sys2Proof.Machine
end

