-- ==== Sys2Proof/Laws/Session.lean ====
section
/-!
SUPPORT. What the session operations do and keep (spec/42_streaming.md, spec/44_long.md): one lemma per operation, which
proofs cite instead of unfolding it.
-/

namespace Sys2Proof.Machine

open Safety

/-! ### The parameter block -/

/-- The digest length is the first byte of the encoded block (R65, R66). -/
@[simp] theorem encodeParams_head (o k : Nat) (salt pers : List Byte) :
    (encodeParams o k salt pers).getD 0 0 = BitVec.ofNat 8 o := rfl

theorem encodeParams_length (o k : Nat) (salt pers : List Byte) : (encodeParams o k salt pers).length = 64 := by
  simp [encodeParams, ParamBlock.toBytes]

/-- The session INIT starts has the digest length asked for. -/
theorem startSession_outlen (o : Nat) (key salt pers : List Byte) (h : o < 256) :
    (startSession o key salt pers).outlen = o := by
  rw [startSession, Session.loadKey_outlen, ctxInit_outlen, encodeParams_head, BitVec.toNat_ofNat]
  exact Nat.mod_eq_of_lt h

@[simp] theorem startSession_phase (o : Nat) (key salt pers : List Byte) :
    (startSession o key salt pers).phase = .initialized := by simp [startSession]

@[simp] theorem startSession_lastNode (o : Nat) (key salt pers : List Byte) :
    (startSession o key salt pers).lastNode = false := by simp [startSession]

/-! ### Absorb -/

@[simp] theorem Session.absorb_nil (c : Session) : c.absorb [] = c := rfl

@[simp] theorem Session.absorb_cons (c : Session) (b : Byte) (bs : List Byte) :
    c.absorb (b :: bs) = (c.absorbByte b).absorb bs := rfl

/-- One turn of the loop changes neither the flags, nor the digest length, the last-node flag or the phase. -/
theorem Session.absorbByte_frame (c : Session) (b : Byte) :
    (c.absorbByte b).f0 = c.f0 ∧ (c.absorbByte b).f1 = c.f1 ∧ (c.absorbByte b).outlen = c.outlen ∧
      (c.absorbByte b).lastNode = c.lastNode ∧ (c.absorbByte b).phase = c.phase := by
  simp only [Session.absorbByte]
  split <;> exact ⟨rfl, rfl, rfl, rfl, rfl⟩

/-- `Absorb` changes neither the flags, nor the digest length, the last-node flag or the phase. -/
theorem Session.absorb_frame (c : Session) (bs : List Byte) :
    (c.absorb bs).f0 = c.f0 ∧ (c.absorb bs).f1 = c.f1 ∧ (c.absorb bs).outlen = c.outlen ∧
      (c.absorb bs).lastNode = c.lastNode ∧ (c.absorb bs).phase = c.phase := by
  induction bs generalizing c with
  | nil => exact ⟨rfl, rfl, rfl, rfl, rfl⟩
  | cons b bs ih =>
    obtain ⟨h1, h2, h3, h4, h5⟩ := Session.absorbByte_frame c b
    obtain ⟨i1, i2, i3, i4, i5⟩ := ih (c.absorbByte b)
    exact ⟨i1.trans h1, i2.trans h2, i3.trans h3, i4.trans h4, i5.trans h5⟩

/-- `Absorb` of a concatenation is `Absorb` of the parts in turn (R87 item 1). -/
theorem Session.absorb_append (c : Session) (as bs : List Byte) : c.absorb (as ++ bs) = (c.absorb as).absorb bs := by
  simp [Session.absorb, List.foldl_append]

/-- Two counter advances are one (R81). -/
theorem advance_advance (t : Counter) (m n : Nat) : advance (advance t m) n = advance t (m + n) := by
  simp only [advance, BitVec.add_assoc]
  rw [← BitVec.ofNat_add]

/-! ### The session invariant (R38, R39) -/

theorem ctxInit_inv (pb : List Byte) (ln : Bool) (h : 1 ≤ (pb.getD 0 0).toNat) (h' : (pb.getD 0 0).toNat ≤ 64) :
    SessionInv (ctxInit pb ln) where
  buflen_le := by simp
  outlen_le := h'
  outlen_pos _ := h
  open_flags _ := by simp
  open_counter _ := by simp
  open_empty _ := by simp
  closed_flags hp := by simp at hp

theorem Session.loadKey_inv (c : Session) (key : List Byte) (hc : SessionInv c) : SessionInv (c.loadKey key) where
  buflen_le := by rw [Session.loadKey_buflen]; split; exact Nat.le_refl _; exact hc.buflen_le
  outlen_le := by simpa using hc.outlen_le
  outlen_pos := by simpa using hc.outlen_pos
  open_flags := by simpa using hc.open_flags
  open_counter := by simpa using hc.open_counter
  open_empty ho hb := by
    rw [Session.loadKey_buflen] at hb
    split at hb
    · cases hb
    · simpa using hc.open_empty (by simpa using ho) hb
  closed_flags := by simpa using hc.closed_flags

theorem startSession_inv (o : Nat) (key salt pers : List Byte) (h : 1 ≤ o) (h' : o ≤ 64) :
    SessionInv (startSession o key salt pers) := by
  have ho : (BitVec.ofNat 8 o).toNat = o := by simp [Nat.mod_eq_of_lt (show o < 256 by omega)]
  exact Session.loadKey_inv _ _ (ctxInit_inv _ _ (by rw [encodeParams_head, ho]; exact h)
    (by rw [encodeParams_head, ho]; exact h'))

/-- The counter stays a multiple of the block size when it is advanced by a block: 2^128 is one too. -/
theorem advance_block (t : Counter) (h : t.toNat % 128 = 0) : (advance t 128).toNat % 128 = 0 := by
  simp only [advance, BitVec.toNat_add, BitVec.toNat_ofNat]
  omega

theorem Session.absorbByte_inv (c : Session) (b : Byte) (hc : SessionInv c) (ho : Open c.phase) :
    SessionInv (c.absorbByte b) := by
  obtain ⟨h1, h2, h3, h4, h5⟩ := Session.absorbByte_frame c b
  refine ⟨?_, by rw [h3]; exact hc.outlen_le, by rw [h3, h5]; exact hc.outlen_pos,
    by rw [h1, h2, h5]; exact hc.open_flags, fun _ => ?_, fun _ => ?_, by rw [h1, h2, h4, h5]; exact hc.closed_flags⟩
  · have := hc.buflen_le
    simp only [Session.absorbByte]
    split
    · simp
    · simp only [Session.push_buflen]
      omega
  · simp only [Session.absorbByte]
    split
    · exact advance_block _ (hc.open_counter ho)
    · exact hc.open_counter ho
  · simp only [Session.absorbByte]
    split <;> simp

theorem Session.absorb_inv (c : Session) (bs : List Byte) (hc : SessionInv c) (ho : Open c.phase) :
    SessionInv (c.absorb bs) := by
  induction bs generalizing c with
  | nil => exact hc
  | cons b bs ih =>
    refine ih _ (Session.absorbByte_inv c b hc ho) ?_
    rw [(Session.absorbByte_frame c b).2.2.2.2]
    exact ho

/-- A change from one open phase to another keeps the invariant. -/
theorem Session.enter_absorbing_inv (c : Session) (hc : SessionInv c) (ho : Open c.phase) :
    SessionInv (c.enter .absorbing) where
  buflen_le := hc.buflen_le
  outlen_le := hc.outlen_le
  outlen_pos _ := hc.outlen_pos (by rcases ho with ho | ho <;> simp [ho])
  open_flags _ := hc.open_flags ho
  open_counter _ := hc.open_counter ho
  open_empty _ := hc.open_empty ho
  closed_flags hp := by simp at hp

/-- The end of a session (R86, R39). -/
theorem Session.finish_inv (c : Session) (hb : c.buflen ≤ 128) (h : 1 ≤ c.outlen) (h' : c.outlen ≤ 64) :
    SessionInv (c.finish.enter .finalized) where
  buflen_le := hb
  outlen_le := h'
  outlen_pos _ := h
  open_flags hp := by simp [Open] at hp
  open_counter hp := by simp [Open] at hp
  open_empty hp := by simp [Open] at hp
  closed_flags _ := by simp

/-- The session a one-shot hash leaves. -/
theorem oneShot_inv (o : Nat) (key salt pers message : List Byte) (h : 1 ≤ o) (h' : o ≤ 64) :
    SessionInv ((oneShot o key salt pers message).enter .finalized) := by
  have hs := startSession_inv o key salt pers h h'
  have ha := Session.absorb_inv _ message hs (.inl (startSession_phase o key salt pers))
  have ho : ((startSession o key salt pers).absorb message).outlen = o :=
    (Session.absorb_frame _ _).2.2.1.trans (startSession_outlen o key salt pers (by omega))
  exact Session.finish_inv _ ha.buflen_le (by omega) (by omega)

theorem hashH_length (n : Nat) (x : List Byte) (h : n ≤ 64) : (hashH n x).length = n := by
  simp [hashH, h]

/-! ### The chain of HASH_LONG (R90, R91) -/

/-- With enough fuel, the last step of the chain is a hash of 33 to 64 bytes (R91), and the session is that hash's. -/
theorem longLoop_last (fuel : Nat) (v out : List Byte) (rem : Nat) (hf : rem ≤ 32 * fuel + 64) (hr : 33 ≤ rem) :
    ∃ n w, 33 ≤ n ∧ n ≤ 64 ∧ (longLoop fuel v out rem).1 = hashSession n w := by
  induction fuel generalizing v out rem with
  | zero => exact ⟨rem, v, hr, by omega, rfl⟩
  | succ fuel ih =>
    simp only [longLoop]
    split
    · exact ih _ _ _ (by omega) (by omega)
    · exact ⟨rem, v, hr, by omega, rfl⟩

/-- With enough fuel, the chain writes exactly the bytes that are left (R91). -/
theorem longLoop_length (fuel : Nat) (v out : List Byte) (rem : Nat) (hf : rem ≤ 32 * fuel + 64) (hr : 33 ≤ rem) :
    (longLoop fuel v out rem).2.length = out.length + rem := by
  induction fuel generalizing v out rem with
  | zero => simp [longLoop, hashH_length rem v (by omega)]
  | succ fuel ih =>
    simp only [longLoop]
    split
    · rw [ih _ _ _ (by omega) (by omega)]
      simp [hashH_length]
      omega
    · simp [hashH_length rem v (by omega)]

/-- HASH_LONG's output has exactly the length asked for (R90). -/
theorem hashLongOutput_length (len : BitVec 32) (x : List Byte) : (hashLongOutput len x).2.length = len.toNat := by
  simp only [hashLongOutput]
  split
  · exact hashH_length _ _ (by assumption)
  · rw [longLoop_length _ _ _ _ (by omega) (by omega)]
    simp [hashH_length]
    omega

/-- The session HASH_LONG leaves, for a length it accepts. -/
theorem hashLongOutput_inv (len : BitVec 32) (x : List Byte) (h : len ≠ 0) :
    SessionInv ((hashLongOutput len x).1.enter .finalized) := by
  have hpos : 1 ≤ len.toNat := by
    rcases Nat.eq_zero_or_pos len.toNat with h0 | h0
    · exact absurd (BitVec.eq_of_toNat_eq (by simpa using h0)) h
    · exact h0
  simp only [hashLongOutput]
  split
  · exact oneShot_inv _ _ _ _ _ hpos (by assumption)
  · obtain ⟨n, w, hn, hn', he⟩ := longLoop_last len.toNat (hashH 64 (bytes32 len ++ x))
      ((hashH 64 (bytes32 len ++ x)).take 32) (len.toNat - 32) (by omega) (by omega)
    rw [he]
    exact oneShot_inv _ _ _ _ _ (by omega) hn'

end Sys2Proof.Machine
end

