-- ==== Sys2Proof/Tests/Slice0.lean ====
section
/-!
SUPPORT. Tests of the model against the values of spec/95_test_vectors.md and the rules, each on one word, one operation or
one step; and a witness for the hypotheses of every obligation that has any.
-/

namespace Sys2Proof.Tests

-- One test at a time: checking many at once asks for more threads than the sandbox has memory for.
set_option Elab.async false

open Sys2Proof Sys2Proof.Machine Sys2Proof.Safety

/-- The `len` bytes of a hex string of the spec, first byte first. -/
def hex (len n : Nat) : List Byte := (List.range len).map fun i => BitVec.ofNat 8 (n / 256 ^ (len - 1 - i))

/-- "pattern n" of spec/95: the bytes 0, 1, 2, ... modulo 256. -/
def pattern (n : Nat) : List Byte := (List.range n).map (BitVec.ofNat 8)

/-- "abc". -/
def abc : List Byte := [0x61, 0x62, 0x63]

/-- The state after an outcome, if there is one. -/
def after (o : Host.Outcome State Fault Refusal) : Option State :=
  match o with
  | .next t => some t
  | .fault _ => none
  | .refused _ => none

/-- The refusal of an outcome, if it is one. -/
def refusal (o : Host.Outcome State Fault Refusal) : Option Refusal :=
  match o with
  | .next _ => none
  | .fault _ => none
  | .refused r => some r

/-- A state after reset with a message at 0x1000, its length latched, and the output address 0x2000. -/
def withMessage (m : List Byte) : State :=
  { State.reset.withMem 0x1000 m with
    latch := { Latch.reset with src := 0x1000, srcLen := BitVec.ofNat 64 m.length, dst := 0x2000 } }

/-- The same with a session in progress. -/
def inSession (c : Session) (m : List Byte) : State := { withMessage m with ctx := c }

/-! ### Well-formedness: a term that passes, and an ill-formed term for each check -/

theorem test_wellFormed_boundary :
    ([.init 127 127 16 16, .initParams true, .update, .final 127, .hash 0 0 16 16, .hashLong] : List Instr).all
      (·.wellFormed) = true := by decide

theorem test_illFormed_init_saltlen : (Instr.init 64 0 17 0).wellFormed = false := by decide
theorem test_illFormed_init_perslen : (Instr.init 64 0 0 17).wellFormed = false := by decide
theorem test_illFormed_hash_saltlen : (Instr.hash 64 0 17 0).wellFormed = false := by decide
theorem test_illFormed_hash_perslen : (Instr.hash 64 0 0 17).wellFormed = false := by decide

/-! ### Decoding: words written out field by field from the layout of R56 (RSVH, RSV, LN, PERSLEN, SALTLEN, KEYLEN,
OUTLEN, OP), and the hex words of spec/95 section 2.1 -/

theorem test_decode_init :
    decodeCommand (0#32 ++ 0#3 ++ 0#1 ++ 16#5 ++ 15#5 ++ 33#7 ++ 32#7 ++ 1#4) = .ok (.init 32 33 15 16) := by decide

theorem test_decode_initParams :
    decodeCommand (0#32 ++ 0#3 ++ 1#1 ++ 0#5 ++ 0#5 ++ 0#7 ++ 0#7 ++ 2#4) = .ok (.initParams true) := by decide

theorem test_decode_update :
    decodeCommand (0#32 ++ 0#3 ++ 0#1 ++ 0#5 ++ 0#5 ++ 0#7 ++ 0#7 ++ 3#4) = .ok .update := by decide

theorem test_decode_final :
    decodeCommand (0#32 ++ 0#3 ++ 0#1 ++ 0#5 ++ 0#5 ++ 0#7 ++ 65#7 ++ 4#4) = .ok (.final 65) := by decide

theorem test_decode_hash :
    decodeCommand (0#32 ++ 0#3 ++ 0#1 ++ 2#5 ++ 1#5 ++ 127#7 ++ 1#7 ++ 5#4) = .ok (.hash 1 127 1 2) := by decide

theorem test_decode_hashLong :
    decodeCommand (0#32 ++ 0#3 ++ 0#1 ++ 0#5 ++ 0#5 ++ 0#7 ++ 0#7 ++ 6#4) = .ok .hashLong := by decide

/-- V-E2, V-E4, V-E5, V-E7, V-E9, V-E22, V-E23. -/
theorem test_decode_vectors :
    decodeCommand 0x20401 = .ok (.init 64 64 0 0) ∧ decodeCommand 0x8400201 = .ok (.init 32 0 16 16) ∧
    decodeCommand 0x10000002 = .ok (.initParams true) ∧ decodeCommand 0x404 = .ok (.final 64) ∧
    decodeCommand 0x8420405 = .ok (.hash 64 64 16 16) ∧ decodeCommand 0x1 = .ok (.init 0 0 0 0) ∧
    decodeCommand 0x3fff1 = .ok (.init 127 127 0 0) := by decide

/-- V-E11 to V-E21: each refusal by its name. -/
theorem test_decode_refusals :
    decodeCommand 0x0 = .error .reservedOpcode ∧ decodeCommand 0x7 = .error .reservedOpcode ∧
    decodeCommand 0xF = .error .reservedOpcode ∧ decodeCommand 0x440401 = .error .longSalt ∧
    decodeCommand 0x8800401 = .error .longPers ∧ decodeCommand 0x10000401 = .error .unusedField ∧
    decodeCommand 0x20000401 = .error .reservedBits ∧ decodeCommand 0x100000401 = .error .reservedBits ∧
    decodeCommand 0x13 = .error .unusedField ∧ decodeCommand 0xa04 = .error .unusedField ∧
    decodeCommand 0x12 = .error .unusedField ∧ decodeCommand 0x16 = .error .unusedField := by decide

theorem test_decode_tooFewBytes : decodeBytes [1, 4, 0, 0, 0, 0, 0] = .error .tooFewBytes := by decide

/-- The examples of R60, encoded. -/
theorem test_encode_vectors :
    encode (.init 64 16 0 0) = 0x8401 ∧ encode (.hash 32 0 0 0) = 0x205 ∧ encode (.initParams true) = 0x10000002 ∧
    encode .update = 0x3 ∧ encode (.final 64) = 0x404 ∧ encode .hashLong = 0x6 := by decide

theorem test_decodeTableWord :
    [0x1, 0x2, 0x3, 0x4, 0x5, 0x6, 0x7].map (decodeTableWord 64) =
      [some (.init 0 0 0 0), some (.initParams false), some .update, some (.final 0), some (.hash 0 0 0 0),
        some .hashLong, none] := by decide

/-! ### The datapath -/

/-- V-R1 to V-R4, V-R6. -/
theorem test_rotr64 :
    [32, 24, 16, 63].map (rotr64 0x0123456789abcdef) =
      [0x89abcdef01234567, 0xabcdef0123456789, 0xcdef0123456789ab, 0x02468acf13579bde] ∧
    rotr64 0x8000000000000000 63 = 1 := by decide

/-- V-G4. -/
theorem test_mixG_y :
    mixG 0 0 0 0 0 1 = ⟨0x0000000000000001, 0x0002000000000000, 0x0001000000000000, 0x0001000000000000⟩ := by
  decide +kernel

/-- V-G7. -/
theorem test_mixG_mixed :
    mixG 0x0123456789abcdef 0xfedcba9876543210 0x0f1e2d3c4b5a6978 0x8796a5b4c3d2e1f0 0x1111111111111111
        0x2222222222222222 =
      ⟨0xe95f405271d7b7c9, 0xa6c4a94d586303f4, 0xe54e59b99295056d, 0x036c3b9cb0b2e750⟩ := by decide +kernel

/-- V-F1: the compression of "abc". -/
theorem test_compress_abc :
    compress (seedChain (encodeParams 64 0 [] [])) (padTo 128 abc) 3 allOnes64 0 =
      #v[0x0d4d1c983fa580ba, 0xe9f6129fb697276a, 0xb7c45a68142f214c, 0xd1a2ffdb6fbb124b,
         0x2d79ab2a39c5877d, 0x95cc3345ded552c2, 0x5a92f1dba88ad318, 0x239900d4ed8623b9] := by decide +kernel

/-- V-F2: the high counter word enters the working vector. -/
theorem test_compress_counterHigh :
    compress iv (Vector.replicate 128 0) 0x10000000000000000 0 0 =
      #v[0x66581b4e441ac020, 0xaad3e5eec8000706, 0xbe911d307cb2bfd9, 0xbb568826128232d2,
         0xbcab2cefcd84c79f, 0xb4bfc1f422a14843, 0x1c059826d4392217, 0x98452eaf1e2f7cda] := by decide +kernel

/-- V-F3: both flags. -/
theorem test_compress_flags :
    compress iv (Vector.replicate 128 0) 0 allOnes64 allOnes64 =
      #v[0x93751fa035f5b565, 0xfed4ba45a71de785, 0x0c0a7474fe743f7e, 0x47470b08b3363cd2,
         0xe7ed6c8d42221961, 0x2daa4a346e0f0d53, 0xa0909dc1c72da2ee, 0x8560ca51df839cf0] := by decide +kernel

/-- V-C1, V-C2, V-C3. -/
theorem test_advance :
    advance 0xffffffffffffff80 128 = 0x10000000000000000 ∧
    advance 0xffffffffffffffffffffffffffffff80 128 = 0 ∧
    advance 0x5ffffffffffffffff 1 = 0x60000000000000000 := by decide

/-- V-P1: the seeded `h[0]`. -/
theorem test_seedChain :
    (seedChain (encodeParams 64 64 [] []))[0] = 0x6a09e667f2bd8948 ∧
    (seedChain (encodeParams 20 0 [] []))[0] = 0x6a09e667f2bdc91c := by decide +kernel

/-- The second row of V-P3: the parameter block with a salt and a personalization. -/
theorem test_encodeParams :
    encodeParams 32 0 [1] [2] =
      hex 16 0x20000101000000000000000000000000 ++ zeros 16 ++ hex 16 0x01000000000000000000000000000000 ++
        hex 16 0x02000000000000000000000000000000 := by decide +kernel

/-- V-P4: the block checks. -/
theorem test_checkParams :
    let pb := encodeParams 64 0 [] []
    checkParams pb = .ok ∧ checkParams (pb.set 0 0) = .invalidDigestLength ∧
    checkParams (pb.set 0 65) = .invalidDigestLength ∧ checkParams ((pb.set 0 0).set 1 65) = .invalidDigestLength ∧
    checkParams ((pb.set 1 65).set 20 1) = .invalidKeyLength ∧ checkParams (pb.set 18 1) = .invalidParameter ∧
    checkParams (pb.set 31 0x80) = .invalidParameter ∧ checkParams ((pb.set 2 0).set 16 255) = .ok ∧
    checkParams (pb.set 32 7) = .ok := by decide +kernel

/-! ### The commands, one step each -/

/-- P4: INIT with a 64-byte key leaves a full buffer and no compression. -/
theorem test_init_keyed :
    (after (exec (.init 64 64 0 0)
        { State.reset.withMem 0x3000 (pattern 64) with latch := { Latch.reset with key := 0x3000 } })).map
      (fun t => (t.status, t.ctx.t, t.ctx.buflen, t.ctx.h[0], t.ctx.buf[63], t.ctx.buf[64])) =
      some (0x02, 0, 128, 0x6a09e667f2bd8948, 63, 0) := by decide +kernel

/-- V-ERR10 to V-ERR13: the error INIT reports. -/
theorem test_init_errors :
    [Instr.init 0 0 0 0, .init 65 0 0 0, .init 127 127 0 0, .init 64 65 0 0].map
        (fun i => (after (exec i State.reset)).map State.status) =
      [some 0x18, some 0x18, some 0x18, some 0x10] := by decide +kernel

/-- P7: the tree parameter block of V-P2. -/
def treeState : State :=
  { State.reset with
    latch := { Latch.reset with
      pb := padTo 64 (bytes64 0x0000100003020020 ++ bytes64 0x0000000000000005 ++ bytes64 0x0000000000002001) } }

/-- P7: INIT_PARAMS with LN = 1 starts a session with digest length 32 and the last-node flag. -/
theorem test_initParams_tree :
    (after (exec (.initParams true) treeState)).map
      (fun t => (t.status, t.ctx.outlen, t.ctx.lastNode, t.ctx.buflen)) = some (0x02, 32, true, 0) := by
  decide +kernel

/-- V-P2: the digest of "tree" with and without the last-node flag. -/
theorem test_initParams_digest :
    [false, true].map (fun ln =>
        ((after (exec (.initParams ln) treeState)).map
          (fun t => ((t.ctx.absorb [0x74, 0x72, 0x65, 0x65]).finish.digest.take 32)))) =
      [some (hex 32 0xc234c41cb3650d89f44e5746558800f54f04414616433b882eba6b1acba513c6),
       some (hex 32 0xacbcf400fa6ec1f456abc3d9b5e61c15a3668f663316f7f89f347c4ff7078ff8)] := by decide +kernel

/-- V-S5 and V-S6: the buffer is compressed only when another byte follows. -/
theorem test_update_boundary :
    [128, 129].map (fun n =>
        (after (exec .update (inSession (startSession 64 [] [] []) (pattern n)))).map
          (fun t => (t.status, t.ctx.t, t.ctx.buflen))) =
      [some (0x04, 0, 128), some (0x04, 128, 1)] := by decide +kernel

/-- V-ERR1, V-ERR6, V-ERR17, V-ERR18: UPDATE's errors, and an empty range at the top of memory. -/
theorem test_update_errors :
    let top (c : Session) (n : Word) : State :=
      { State.reset with ctx := c, latch := { Latch.reset with src := 0xffffffffffffffff, srcLen := n } }
    [top Session.reset 0, top Session.reset 2, top (startSession 64 [] [] []) 2, top (startSession 64 [] [] []) 0].map
        (fun s => (after (exec .update s)).map State.status) =
      [some 0x20, some 0x20, some 0x3a, some 0x04] := by decide +kernel

/-- V-S1: FINAL after INIT, the published digest of the empty input. -/
theorem test_final_empty :
    (after (exec (.final 64) (inSession (startSession 64 [] [] []) []))).map
      (fun t => (t.status, t.mem.readBytes 0x2000 64, t.mem.read 0x2040)) =
      some (0x06, hex 64 0x786a02f742015903c6c6fd852552d272912f4740e15847618a86e217f71f5419d25e1031afee585313896444934eb04b903a685b1448b755d56f701afe9be2ce, 0) := by
  decide +kernel

/-- V-ERR4, V-ERR14: FINAL twice, and FINAL with another length than the session's. -/
theorem test_final_errors :
    (after (exec (.final 32) (inSession ((hashSession 32 abc).enter .finalized) []))).map State.status = some 0x26 ∧
    (after (exec (.final 32) (inSession ((startSession 64 [] [] []).enter .absorbing) []))).map State.status =
      some 0x1c := by decide +kernel

/-- V-O4: HASH of "abc" to 32 bytes, and nothing past them (P1). -/
theorem test_hash_abc :
    (after (exec (.hash 32 0 0 0) (withMessage abc))).map
      (fun t => (t.status, t.mem.readBytes 0x2000 33, t.ctx.t)) =
      some (0x06, hex 33 0xbddd813c634239723171ef3fee98579b94964e3bb1cb3e427262c8c068d5231900, 3) := by
  decide +kernel

/-- V-K2: a keyed hash of one byte, in two compressions. -/
theorem test_hash_keyed :
    (after (exec (.hash 64 64 0 0)
        { (withMessage [0]).withMem 0x3000 (pattern 64) with
          latch := { (withMessage [0]).latch with key := 0x3000 } })).map
      (fun t => (t.ctx.t, t.mem.readBytes 0x2000 64)) =
      some (129, hex 64 0x961f6dd1e4dd30f63901690c512e78e4b45e4742ed197c3c5e45c549fd25f2e4187b0bc9fe30492b16b0d0bc4ef9b0f34c7003fac09a5ef1532e69430234cebd) := by
  decide +kernel

/-- V-X: HASH_LONG with T = 4 over the empty input. -/
theorem test_hashLong_short :
    (after (exec .hashLong
        { withMessage [] with latch := { (withMessage []).latch with longLen := 4 } })).map
      (fun t => (t.status, t.mem.readBytes 0x2000 5, t.ctx.outlen)) = some (0x06, hex 5 0x431894c500, 4) := by
  decide +kernel

/-- V-X and P5: T = 96 over "abc", where the rejected reading of the loop gives other bytes. -/
theorem test_hashLong_96 :
    (after (exec .hashLong
        { withMessage abc with latch := { (withMessage abc).latch with longLen := 96 } })).map
      (fun t => (t.mem.readBytes 0x2000 96, t.ctx.outlen)) =
      some (hex 96 0x41b5590d909a09f99c2c5475f782ba721397c7dc626736a3b5b0b369bab78af24a800ffd07bd9b94e073fe5451b20caf770b68afe0839842b4723550bdf083cf9e205e5304aaec1584f10008285f563252fcfcf207ca8c755d1652168b9024af, 64) := by
  decide +kernel

/-! ### Steps -/

/-- Each row's word with its operand fields 0, run as the first command after reset (spec/60 R96). -/
theorem test_step_rows :
    [0x1, 0x2, 0x3, 0x4, 0x5, 0x6, 0x7].map (fun w => (after (step (State.reset.withFetchWord 64 w))).map (·.err)) =
      [some .invalidOutputLength, some .invalidDigestLength, some .invalidState, some .invalidState,
        some .invalidOutputLength, some .invalidOutputLength, some .illegalCommand] := by decide +kernel

/-- A `wr` of P1, one host step. -/
theorem test_step_wr :
    (after (step { State.reset with schedule := State.reset.platform.wr .dstAddr 0x2000 })).map
      (fun t => (t.readReg .dstAddr, t.schedule)) = some (0x2000, []) := by decide +kernel

/-- STATUS as spec/95 section 2.10 gives it, in three phases and with three errors. -/
theorem test_status_values :
    [(Phase.initialized, ErrCode.busError), (.absorbing, .invalidOutputLength), (.finalized, .invalidParameter),
        (.finalized, .invalidDigestLength)].map
        (fun q => ({ State.reset with ctx := Session.reset.enter q.1, err := q.2 } : State).status) =
      [0x3a, 0x1c, 0x36, 0x0e] := by decide

/-- The acceptance of a CMD write, one host step: BUSY is set. -/
theorem test_step_cmd :
    (after (step { State.reset with schedule := State.reset.platform.cmd (.init 64 0 0 0) })).map
      (fun t => (t.status, t.readReg .cmd, t.latch.cmd)) = some (0x01, 0x401, 0x401) := by decide +kernel

/-- R116, R112 (log 15): a run may end right after reset, but neither while BUSY nor before the first reset. -/
theorem test_quiescent :
    Quiescent State.reset ∧ ¬ Quiescent (State.reset.accept 0x3) ∧
      ¬ Quiescent { State.reset with resetDone := false } := by decide

/-- V-ERR20 and P6: a range that is admitted only in part writes nothing. -/
theorem test_partly_admitted :
    (after (exec (.hash 32 0 0 0)
        { withMessage abc with
          platform := { base := 0, admitted := [⟨0x1000, 0x2000⟩] },
          latch := { (withMessage abc).latch with dst := 0x2ff0 } })).map
      (fun t => (t.status, t.mem == (withMessage abc).mem)) = some (0x38, true) := by decide +kernel

/-! ### Witnesses: for every obligation with hypotheses, a state and operands that meet them -/

/-- A command whose check passes succeeds. -/
theorem succeeds {i : Instr} {s : State} (h : s.check i = .ok) : ∃ t, exec i s = .next t ∧ t.err = .ok := by
  rcases exec_cases i s with ⟨-, he⟩ | ⟨hc, -⟩
  · exact ⟨_, he, rfl⟩
  · exact absurd h hc

/-- A command whose check gives an error ends with it. -/
theorem fails {i : Instr} {s : State} {e : ErrCode} (h : s.check i = e) (he : e ≠ .ok) :
    ∃ t, exec i s = .next t ∧ t.err = e := by
  rcases exec_cases i s with ⟨hc, -⟩ | ⟨-, hx⟩
  · exact absurd (h.symm.trans hc) he
  · exact ⟨_, hx, h⟩

/-- A state in which each of the six commands succeeds. -/
def ready : State :=
  { inSession ((startSession 64 [] [] []).absorb abc) abc with
    latch := { (withMessage abc).latch with
      key := 0x1000, longLen := 96, pb := padTo 64 (encodeParams 64 0 [] []) } }

/-- The same outside a session. -/
def closed : State := { ready with ctx := Session.reset }

/-- A platform that admits 0x1000 to 0x2fff. -/
def narrow : Platform := { base := 0x40000000, admitted := [⟨0x1000, 0x2000⟩] }

/-- `DecodeOfEncode`. -/
theorem witness_wellFormed : (Instr.hash 127 127 16 16).wellFormed = true ∧ Instr.update.wellFormed = true := by decide

/-- `EncodeOfDecode`, `PlacedWordRuns`. -/
theorem witness_decodes : decodeCommand 0x8420405 = .ok (.hash 64 64 16 16) := by decide

/-- `IllegalWordsComplete`: a word for each item of R61, a word that is not illegal, and an idle engine. -/
theorem witness_illegal :
    (IllegalWord 0x20000401 ∧ IllegalWord 0x100000401) ∧ (IllegalWord 0x0 ∧ IllegalWord 0x7 ∧ IllegalWord 0xF) ∧
    (IllegalWord 0x10000401 ∧ IllegalWord 0x12 ∧ IllegalWord 0x13 ∧ IllegalWord 0x16 ∧ IllegalWord 0xa04) ∧
    (IllegalWord 0x440401 ∧ IllegalWord 0x8800405) ∧ ¬ IllegalWord 0x8420405 ∧
    State.reset.resetDone = true ∧ State.reset.busy = false := by
  refine ⟨⟨?_, ?_⟩, ⟨?_, ?_, ?_⟩, ⟨?_, ?_, ?_, ?_, ?_⟩, ⟨?_, ?_⟩, ?_, rfl, rfl⟩ <;> simp only [IllegalWord] <;> decide

/-- `TableRowsDoNotOverlap`. -/
theorem witness_matches : ∃ r ∈ opTable, r.matches 0x20401 = true := ⟨_, .head _, by decide⟩

/-- `RotationTowardBitZero`, `CounterAdvance`, `SequentialParamBlock`, `ParamBlockRoundTrip` and
`StreamingIsTheBlockChain`, at the ends of their ranges. -/
theorem witness_ranges :
    (0 < 1 ∧ 1 < 64 ∧ 63 < 64) ∧ (0 < 63 ∧ 63 < 64 ∧ 0 < 64) ∧ (0 ≤ 128 ∧ 128 ≤ 128) ∧
    (1 ≤ 64 ∧ 64 ≤ 64 ∧ (pattern 16).length ≤ 16 ∧ (pattern 0).length ≤ 16) ∧
    (encodeParams 64 64 [] []).length = 64 ∧ (pattern 64).length ≤ 64 := by decide

/-- `InitCompletes` and `HashCompletes`, at both ends of their ranges. -/
theorem witness_init :
    (1 ≤ (1#7).toNat ∧ (0#7).toNat ≤ 64 ∧ (0#5).toNat ≤ 16) ∧
    (1 ≤ (64#7).toNat ∧ (64#7).toNat ≤ 64 ∧ (16#5).toNat ≤ 16) ∧
    ready.platform.admits ⟨ready.latch.key.toNat, (64#7).toNat⟩ = true ∧
    ready.platform.admits ⟨ready.latch.salt.toNat, (16#5).toNat⟩ = true ∧
    ready.platform.admits ⟨ready.latch.pers.toNat, (0#5).toNat⟩ = true ∧
    ready.platform.admits ⟨ready.latch.src.toNat, ready.latch.srcLen.toNat⟩ = true ∧
    ready.platform.admits ⟨ready.latch.dst.toNat, (64#7).toNat⟩ = true := by decide +kernel

/-- `InitParamsCompletes` and the last clause of `ParamBlockErrors`. -/
theorem witness_initParams :
    1 ≤ ready.latch.pb[0].toNat ∧ ready.latch.pb[0].toNat ≤ 64 ∧ ready.latch.pb[1].toNat ≤ 64 ∧
      ∀ j : Fin 14, ready.latch.pb[18 + j.val] = 0 := by decide +kernel

/-- `UpdateCompletes`, `FinalCompletes` and `HashLongCompletes`. -/
theorem witness_open :
    Open ready.ctx.phase ∧ ready.platform.admits ⟨ready.latch.src.toNat, ready.latch.srcLen.toNat⟩ = true ∧
    (64#7).toNat = ready.ctx.outlen ∧ ready.platform.admits ⟨ready.latch.dst.toNat, ready.ctx.outlen⟩ = true ∧
    ready.latch.longLen ≠ 0 ∧ ready.platform.admits ⟨ready.latch.dst.toNat, ready.latch.longLen.toNat⟩ = true := by
  unfold Open
  decide +kernel

/-- `EncodePathErrors`: boundary operands of each clause. -/
theorem witness_encodePath :
    16 < (17#5).toNat ∧ (16#5).toNat ≤ 16 ∧ (0#7).toNat = 0 ∧ 64 < (65#7).toNat ∧ 1 ≤ (64#7).toNat ∧
      (64#7).toNat ≤ 64 ∧ (closed.latch.pb.set 0 0)[0].toNat = 0 ∧ 64 < (closed.latch.pb.set 0 65)[0].toNat := by
  decide +kernel

/-- `ParamBlockErrors`: a block for each clause (the first two bytes, and the reserved bytes at both ends). -/
theorem witness_paramBlock :
    (Latch.reset.pb)[0].toNat = 0 ∧ 64 < (ready.latch.pb.set 0 65)[0].toNat ∧
    (1 ≤ (ready.latch.pb.set 1 65)[0].toNat ∧ (ready.latch.pb.set 1 65)[0].toNat ≤ 64 ∧
      64 < (ready.latch.pb.set 1 65)[1].toNat) ∧
    (1 ≤ (ready.latch.pb.set 31 1)[0].toNat ∧ (ready.latch.pb.set 31 1)[0].toNat ≤ 64 ∧
      (ready.latch.pb.set 31 1)[1].toNat ≤ 64 ∧ ∃ j : Fin 14, (ready.latch.pb.set 31 1)[18 + j.val] ≠ 0) := by
  decide +kernel

/-- `SequenceErrors`: both closed phases, and an open session with another length. -/
theorem witness_sequence :
    ¬ Open closed.ctx.phase ∧ ¬ Open ((hashSession 32 abc).enter .finalized).phase ∧
      (Open ready.ctx.phase ∧ (32#7).toNat ≠ ready.ctx.outlen) := by
  unfold Open
  decide +kernel

/-- V-ERR17: an open session, and a message range that passes 2^64. -/
def wrapping : State := { ready with latch := { ready.latch with src := 0xffffffffffffffff, srcLen := 2 } }

/-- `RangesAreCheckedFirst`: for each command with a range, one that is not admitted where no earlier test applies (a
wrapping range, and a destination that is admitted in part); and an admitted range up to the last byte. -/
theorem witness_range :
    (∃ r ∈ wrapping.ranges .update, wrapping.platform.admits r = false) ∧ Open wrapping.ctx.phase ∧
    (∃ r ∈ wrapping.ranges (.hash 64 64 16 16), wrapping.platform.admits r = false) ∧
    (∃ r ∈ wrapping.ranges .hashLong, wrapping.platform.admits r = false) ∧ wrapping.latch.longLen ≠ 0 ∧
    (∃ r ∈ ({ ready with latch := { ready.latch with key := 0xffffffffffffffff } } : State).ranges (.init 64 64 16 16),
      ready.platform.admits r = false) ∧
    (∃ r ∈ ({ ready with platform := narrow, latch := { ready.latch with dst := 0x2ff0 } } : State).ranges (.final 64),
      narrow.admits r = false) ∧ (64#7).toNat = ready.ctx.outlen ∧
    narrow.admits ⟨0x1000, 0x2000⟩ = true ∧ narrow.admits ⟨0x1000, 0x2001⟩ = false ∧
    Platform.default.admits ⟨2 ^ 64 - 1, 1⟩ = true ∧ Platform.default.admits ⟨2 ^ 64 - 1, 2⟩ = false := by
  refine ⟨⟨⟨2 ^ 64 - 1, 2⟩, by decide +kernel⟩, .inl (by decide +kernel), ⟨⟨2 ^ 64 - 1, 2⟩, by decide +kernel⟩,
    ⟨⟨2 ^ 64 - 1, 2⟩, by decide +kernel⟩, by decide +kernel, ⟨⟨2 ^ 64 - 1, 64⟩, by decide +kernel⟩,
    ⟨⟨0x2ff0, 64⟩, by decide +kernel⟩, ?_⟩
  decide +kernel

/-- A step that succeeds, for every command: `AllOrNothing`, `PhaseTransitions`, `FinalizationFlags`, `LastNodeFlag`,
`SessionDigestLength`, `HashWritesTheBlockChain`, `HashLongWritesTheSchedule`, `CommandsKeepRegisters`,
`CommandsKeepOtherMemory`, `StreamingKeepsSession`. -/
theorem witness_succeeds :
    ready.mem.wf ∧
    ∀ i ∈ ([.init 64 0 0 0, .initParams true, .update, .final 64, .hash 64 3 0 0, .hashLong] : List Instr),
      ∃ t, exec i ready = .next t ∧ t.err = .ok := by
  refine ⟨by decide +kernel, fun i hi => succeeds ?_⟩
  have h : ∀ i ∈ ([.init 64 0 0 0, .initParams true, .update, .final 64, .hash 64 3 0 0, .hashLong] : List Instr),
      ready.check i = .ok := by decide +kernel
  exact h i hi

/-- `CommandsKeepOtherMemory`: the last byte before and the first after the stored ranges of FINAL and HASH_LONG. -/
theorem witness_outside :
    0x1FFF < ready.latch.dst.toNat ∧ ready.latch.dst.toNat + ready.ctx.outlen ≤ 0x2040 ∧
      ready.latch.dst.toNat + ready.latch.longLen.toNat ≤ 0x2060 := by decide +kernel

/-- A step that fails (`AllOrNothing`, `PhaseTransitions`), and a session that keeps the premise of
`SessionDigestLength` (and of its FINAL clause). -/
theorem witness_fails :
    (∃ t, exec .update closed = .next t ∧ t.err = .invalidState) ∧
    (ready.ctx.phase ≠ .uninitialized → 1 ≤ ready.ctx.outlen ∧ ready.ctx.outlen ≤ 64) := by
  refine ⟨fails (by decide +kernel) (by decide), ?_⟩
  decide +kernel

/-- `EveryCommandCompletes`, `StepRunsTheCommand`: a command that stands accepted. -/
theorem witness_busy :
    (State.reset.accept 0x401).resetDone = true ∧ (State.reset.accept 0x401).busy = true ∧
    (State.reset.accept 0x401).nextMove = .engine ∧
    decodeCommand (State.reset.accept 0x401).latch.cmd = .ok (.init 64 0 0 0) := by decide

/-- `UpdateCounterAndFill`: a full buffer, an empty and a non-empty input. -/
theorem witness_fill :
    (startSession 64 (pattern 64) [] []).buflen = 128 ∧ (startSession 64 (pattern 64) [] []).buflen ≤ 128 ∧
      pattern 1 ≠ [] ∧ pattern 0 = [] := by decide +kernel

/-- `UpdateSplit`: two bytes and one. -/
theorem witness_split :
    Open ready.ctx.phase ∧ (2 : Word).toNat + (1 : Word).toNat < 2 ^ 64 ∧ ready.latch.srcLen = 2 + 1 ∧
      ready.platform.admits ⟨ready.latch.src.toNat, ready.latch.srcLen.toNat⟩ = true := by
  unfold Open
  decide +kernel

/-- `HashIsInitUpdateFinal`: an idle engine whose operand registers make HASH succeed. -/
theorem witness_hashEquivalence :
    let s : State := { State.reset with regs := { Regs.reset with srcAddr := 0x1000, srcLen := 3, dstAddr := 0x1001 } }
    s.resetDone = true ∧ s.busy = false ∧
      (s.accept (encode (.hash 64 16 16 16))).check (.hash 64 16 16 16) = .ok := by decide +kernel

/-- `InitParamsIsUnkeyedInit`. -/
theorem witness_unkeyed :
    1 ≤ (64#7).toNat ∧ (64#7).toNat ≤ 64 ∧ (0#5).toNat ≤ 16 ∧
    ready.platform.admits ⟨ready.latch.salt.toNat, (0#5).toNat⟩ = true ∧
    ready.platform.admits ⟨ready.latch.pers.toNat, (0#5).toNat⟩ = true ∧
    ready.latch.pb.toList = encodeParams (64#7).toNat 0 (ready.mem.readBytes ready.latch.salt.toNat (0#5).toNat)
      (ready.mem.readBytes ready.latch.pers.toNat (0#5).toNat) := by decide +kernel

/-- `SessionIsNotReadBeforeInit`: both clauses. -/
theorem witness_notRead :
    (Instr.hashLong ≠ .update ∧ ∀ o, Instr.hashLong ≠ .final o) ∧
    (Session.reset.phase = .uninitialized ∧ ((Instr.final 64) = .update ∨ ∃ o, (Instr.final 64) = .final o)) := by
  simp [Session.reset]

/-- `Acceptance`, `RegistersReadBack`: an idle and a busy engine, and the registers at both ends of the block. -/
theorem witness_acceptance :
    State.reset.busy = false ∧ (State.reset.accept 0x3).busy = true ∧
    (Reg.srcAddr ≠ .cmd ∧ Reg.srcAddr ≠ .status) ∧ (Reg.param 7 ≠ .cmd ∧ Reg.param 7 ≠ .status) ∧
    (Reg.longOutlen ≠ .cmd ∧ Reg.longOutlen ≠ .status) := by decide

/-- `ReservedSlots`: the ends of both reserved ranges. -/
theorem witness_reserved :
    ∀ off ∈ [0x48, 0x78, 0xC0, 0xF8], off % 8 = 0 ∧ ((0x48 ≤ off ∧ off ≤ 0x78) ∨ (0xC0 ≤ off ∧ off ≤ 0xF8)) := by
  decide

/-- `LongOutlenRegister`: a latched length of 0. -/
theorem witness_longLen : closed.latch.longLen ≠ 0 ∧ State.reset.latch.longLen = 0 := by decide +kernel

/-- `RegisterAccesses`, `RegisterOffsets`: the first and the last slot, and the forms that have no step. -/
theorem witness_accesses :
    let p := narrow
    (p.base ≤ p.base + 248 ∧ p.base + 248 < p.base + 256 ∧ (p.base + 248 - p.base) % 8 = 0) ∧
    (p.base ≤ p.base ∧ p.base < p.base + 256 ∧ (p.base - p.base) % 8 = 0) ∧
    (p.base + 252 < p.base + 256 ∧ ¬ ((8 : Nat) = 8 ∧ (p.base + 252 - p.base) % 8 = 0)) ∧
    ¬ ((4 : Nat) = 8 ∧ (p.base - p.base) % 8 = 0) ∧ Reg.ofSlot 23 = some (.param 7) := by decide

/-- A HASH of "abc" that is BUSY. -/
def running : State := { ready with busy := true, latch := { ready.latch with cmd := 0x205 } }

/-- `BusyRangesAreLeftAlone`: a running HASH, a store to the last byte of its message and one past its output, a load of
the last byte of its output and one of its message. -/
theorem witness_busyRanges :
    running.busy = true ∧ decodeCommand running.latch.cmd = .ok (.hash 32 0 0 0) ∧
    running.check (.hash 32 0 0 0) = .ok ∧ 0x1002 + [0xAA].length ≤ 2 ^ 64 ∧
    (∃ j, j < 1 ∧ ∃ r ∈ running.ranges (.hash 32 0 0 0), r.addr ≤ 0x1002 + j ∧ 0x1002 + j < r.addr + r.len) ∧
    (∃ j, j < 1 ∧ ∃ r ∈ running.writeRanges (.hash 32 0 0 0), r.addr ≤ 0x201F + j ∧ 0x201F + j < r.addr + r.len) ∧
    (∀ j, j < 1 → ∀ r ∈ running.ranges (.hash 32 0 0 0), 0x2020 + j < r.addr ∨ r.addr + r.len ≤ 0x2020 + j) ∧
    (∀ j, j < 1 → ∀ r ∈ running.writeRanges (.hash 32 0 0 0), 0x1002 + j < r.addr ∨ r.addr + r.len ≤ 0x1002 + j) := by
  refine ⟨by decide, by decide +kernel, by decide +kernel, by decide, ⟨0, by decide, ⟨0x1000, 3⟩, by decide +kernel⟩,
    ⟨0, by decide, ⟨0x2000, 32⟩, by decide +kernel⟩, ?_, ?_⟩ <;>
  · intro j hj
    have : j = 0 := by omega
    subst this
    decide +kernel

/-- `BusyRangesAreLeftAlone`, its last part: an idle engine; a BUSY one whose command fails its check; and an access
up to the last byte of memory. -/
theorem witness_noRanges :
    State.reset.busy = false ∧
    (∀ i, decodeCommand (State.reset.accept 0x1).latch.cmd = .ok i → (State.reset.accept 0x1).check i ≠ .ok) ∧
    2 ^ 64 - 1 + [0xAA].length ≤ 2 ^ 64 := by
  refine ⟨rfl, fun i hi => ?_, by decide⟩
  have h : decodeCommand (State.reset.accept 0x1).latch.cmd = .ok (.init 0 0 0 0) := by decide
  rw [h] at hi
  injection hi with hi
  subst hi
  decide +kernel

/-- A permitted host load of a BUSY engine's message returns its bytes (R50). -/
theorem test_busy_load :
    (after (running.hostAccess (.memLoad 0x1000 3))).map (·.response) = some (some (.mem abc)) := by decide +kernel

/-- The refusals of host duties 1 and 2. -/
theorem test_refusals :
    refusal (running.hostAccess (.memStore 0x1002 [0xAA])) = some .busyRange ∧
    refusal (running.hostAccess (.memLoad 0x1002 1)) = none ∧
    refusal (running.hostAccess (.regLoad 4 8)) = some .registerAccessForm ∧
    refusal (running.hostAccess (.regLoad 256 8)) = some .notRegisterBlock := by decide +kernel

/-- `BusyRegisterWritesWait`: a busy engine whose command ends. -/
theorem witness_busyWrite :
    running.busy = true ∧ Reg.srcAddr ≠ .cmd ∧ ∃ t, running.engineMove = .next t := by
  have h : running.engineMove = exec (.hash 32 0 0 0) running := rfl
  obtain ⟨t, ht, -⟩ := succeeds (i := .hash 32 0 0 0) (s := running) (by decide +kernel)
  exact ⟨rfl, by decide, t, h.trans ht⟩

/-- `ResetSignal`: a reset of an idle engine, of one with an illegal word, and of one with a running HASH. -/
theorem witness_reset :
    ({ ready with schedule := [.reset] } : State).nextMove = .reset ∧ ready.busy = false ∧ ready.mem.wf ∧
    (running.busy = true ∧ decodeCommand running.latch.cmd = .ok (.hash 32 0 0 0) ∧
      ⟨0x2000, 32⟩ ∈ running.writeRanges (.hash 32 0 0 0) ∧ 0x2000 + 31 < 2 ^ 64) ∧
    ((State.reset.accept 0x13).busy = true ∧
      decodeCommand (State.reset.accept 0x13).latch.cmd = .error .unusedField) := by decide +kernel

/-- `StepKeepsInvariant`: a state in an open session that meets the invariant, and its step. -/
theorem witness_invariant : StateInv ready ∧ ∃ t, step ready = .next t := by
  refine ⟨⟨by decide +kernel, by decide +kernel, ?_, fun h => absurd h (by decide)⟩, _, rfl⟩
  exact Session.absorb_inv _ _ (startSession_inv _ _ _ _ (by decide) (by decide)) (.inl rfl)

/-- `WhatChangesMemory` and `WhatChangesStatus`: a host store changes memory, a CMD write changes BUSY. -/
theorem witness_changes :
    (after (step { State.reset with schedule := [.host (.memStore 5 [1])] })).map (fun t => t.mem == State.reset.mem) =
      some false ∧
    (after (step { State.reset with schedule := [.host (.regStore 0 8 0x3)] })).map (fun t => t.busy) = some true := by
  decide +kernel

/-- `NoStepBeforeReset`: a machine that has not been reset, with each kind of move. -/
theorem witness_beforeReset :
    let s : State := { State.reset with resetDone := false }
    s.resetDone = false ∧ s.nextMove ≠ .reset ∧
      ({ s with schedule := [.reset] } : State).resetDone = false ∧
      ({ s with schedule := [.reset] } : State).nextMove = .reset := by decide

/-- `SessionIsHidden`: two sessions that differ, in the same phase. -/
theorem witness_hidden :
    (startSession 32 abc [] []).phase = (startSession 64 [] [] []).phase ∧
      startSession 32 abc [] [] ≠ startSession 64 [] [] [] := by decide +kernel

end Sys2Proof.Tests
end

section
/-!
PROOFS. The statements of spec/00_scope.md: the rotation of R8 and the all-or-nothing rule R10.
-/

namespace Sys2Proof.Proofs

open Sys2Proof.Machine Sys2Proof.Safety

/-! ### The rotation (R8) -/

/-- On the rotation amounts of R8, `rotr64` is the library's rotation. -/
theorem rotr64_eq_rotateRight (x : Word) {n : Nat} (hn : n < 64) : rotr64 x n = x.rotateRight n := by
  rw [BitVec.rotateRight_def, Nat.mod_eq_of_lt hn, rotr64]

/-- Settles O7: a bit below `64 - n` comes from `n` places up, and the other bits wrap round. -/
theorem rotationTowardBitZero : Obligations.RotationTowardBitZero := by
  intro x n k _ hn hk
  rw [rotr64_eq_rotateRight x hn, BitVec.getLsbD_rotateRight, Nat.mod_eq_of_lt hn]
  by_cases hlow : k < 64 - n
  · have hidx : (k + n) % 64 = n + k := by omega
    simp [hlow, hidx]
  · have hidx : (k + n) % 64 = k - (64 - n) := by omega
    simp [hlow, hk, hidx]

/-! ### A command is all-or-nothing (R10) -/

/-- Settles O24: a command ends in one of the two ways of `exec_next`, and the error it leaves tells which. -/
theorem allOrNothing : Obligations.AllOrNothing := by
  intro i s t h
  rcases exec_next h with ⟨hcheck, rfl⟩ | ⟨hcheck, rfl⟩
  · exact ⟨fun herr => absurd rfl herr, fun _ => hcheck⟩
  · exact ⟨fun _ => ⟨rfl, rfl⟩, fun herr => absurd herr hcheck⟩

end Sys2Proof.Proofs
end

section
/-!
PROOFS. The register block and STATUS (spec/10_state.md rules R14 to R25, R27; spec/60_exceptions.md rules R93 to R100):
the register table, what a write changes, what a command leaves, and what a host sees of the session.
-/

namespace Sys2Proof.Proofs

open Sys2Proof.Machine Sys2Proof.Safety

/-! ### The register table (R14, R25) -/

/-- A slot that holds a register is at the register's offset. -/
theorem offset_of_ofSlot {k : Nat} {r : Reg} (h : Reg.ofSlot k = some r) : r.offset = 8 * k := by
  simp only [Reg.ofSlot] at h
  split at h
  case h_10 =>
    split at h
    · rename_i hk
      cases h
      simp only [Reg.offset]
      omega
    · cases h
  all_goals cases h; rfl

/-- The slot at a register's offset holds it. -/
theorem ofSlot_offset (r : Reg) : Reg.ofSlot (r.offset / 8) = some r := by
  cases r with
  | param j =>
    revert j
    decide
  | _ => rfl

/-- The offsets of the block at which a register stands. -/
theorem offset_range (r : Reg) :
    r.offset % 8 = 0 ∧ (r.offset ≤ 0x40 ∨ (0x80 ≤ r.offset ∧ r.offset ≤ 0xB8)) := by
  cases r with
  | param j =>
    simp only [Reg.offset]
    omega
  | _ => decide

/-- A slot whose offset is none of the table's is reserved (R25). -/
theorem ofSlot_eq_none {k : Nat} (h : (0x48 ≤ 8 * k ∧ 8 * k ≤ 0x78) ∨ 0xC0 ≤ 8 * k) : Reg.ofSlot k = none := by
  cases hr : Reg.ofSlot k with
  | none => rfl
  | some r =>
    have hoff := offset_of_ofSlot hr
    have hrange := offset_range r
    omega

/-- Settles O47: the table is evaluated register by register, and a slot is inverted once by `offset_of_ofSlot`. -/
theorem registerOffsets : Obligations.RegisterOffsets := by
  refine ⟨⟨rfl, rfl, rfl, rfl, rfl, rfl, rfl, rfl, rfl, fun _ => rfl⟩, fun r => ?_, fun _ _ => offset_of_ofSlot⟩
  have hrange := offset_range r
  exact ⟨hrange.1, by omega, ofSlot_offset r⟩

/-- Settles O43: no register stands at a reserved offset, so both accesses take their reserved branch. -/
theorem reservedSlots : Obligations.ReservedSlots := by
  intro s off v haligned hoff
  have hnone : Reg.ofSlot (off / 8) = none := ofSlot_eq_none (by omega)
  exact ⟨by rw [State.readSlot, hnone], by rw [State.writeSlot, hnone]⟩

/-! ### Reading and writing a register -/

/-- Every register but STATUS is read from the stored registers alone. -/
theorem readReg_of_regs_eq {s t : State} {r : Reg} (hr : r ≠ .status) (h : t.regs = s.regs) :
    t.readReg r = s.readReg r := by
  cases r with
  | status => exact absurd rfl hr
  | _ => simp only [State.readReg, h]

/-- STATUS is read from BUSY, ERR and the phase alone (R16). -/
theorem status_congr {s t : State} (hbusy : t.busy = s.busy) (herr : t.err = s.err)
    (hphase : t.ctx.phase = s.ctx.phase) : t.status = s.status := by
  simp only [State.status, hbusy, herr, hphase]

/-- A write to a register other than CMD is an update of the stored registers, whatever the rest of the state. -/
theorem writeReg_updates_regs {r : Reg} (v : Word) (hr : r ≠ .cmd) :
    ∃ f : Regs → Regs, ∀ s : State, s.writeReg r v = { s with regs := f s.regs } := by
  cases r with
  | cmd => exact absurd rfl hr
  | status => exact ⟨id, fun _ => rfl⟩
  | srcAddr => exact ⟨fun g => { g with srcAddr := v }, fun _ => rfl⟩
  | srcLen => exact ⟨fun g => { g with srcLen := v }, fun _ => rfl⟩
  | dstAddr => exact ⟨fun g => { g with dstAddr := v }, fun _ => rfl⟩
  | keyAddr => exact ⟨fun g => { g with keyAddr := v }, fun _ => rfl⟩
  | saltAddr => exact ⟨fun g => { g with saltAddr := v }, fun _ => rfl⟩
  | persAddr => exact ⟨fun g => { g with persAddr := v }, fun _ => rfl⟩
  | longOutlen => exact ⟨fun g => { g with longOutlen := v.setWidth 32 }, fun _ => rfl⟩
  | param j => exact ⟨fun g => { g with param := g.param.set j v }, fun _ => rfl⟩

/-- Truncation to the low 32 bits of a word, as a mask (R23). -/
theorem setWidth_low32 (v : Word) : (v.setWidth 32).setWidth 64 = v &&& 0xFFFFFFFF := by
  apply BitVec.eq_of_toNat_eq
  have hmask : (v &&& 0xFFFFFFFF).toNat = v.toNat % 2 ^ 32 := Nat.and_two_pow_sub_one_eq_mod v.toNat 32
  rw [BitVec.toNat_setWidth, BitVec.toNat_setWidth, hmask]
  omega

/-- A register other than CMD and STATUS reads back what was written, LONG_OUTLEN its low 32 bits. -/
theorem readReg_writeReg_same (s : State) (v : Word) {r : Reg} (hcmd : r ≠ .cmd) (hstatus : r ≠ .status) :
    (s.writeReg r v).readReg r = if r = .longOutlen then v &&& 0xFFFFFFFF else v := by
  cases r with
  | cmd => exact absurd rfl hcmd
  | status => exact absurd rfl hstatus
  | longOutlen => exact setWidth_low32 v
  | param j => simp [State.readReg, State.writeReg]
  | _ => rfl

/-- A write to a register other than CMD changes no other register. -/
theorem readReg_writeReg_other (s : State) (v : Word) {r q : Reg} (hcmd : r ≠ .cmd) (hq : q ≠ r) :
    (s.writeReg r v).readReg q = s.readReg q := by
  cases q with
  | status =>
    obtain ⟨f, hf⟩ := writeReg_updates_regs v hcmd
    rw [hf]
    exact status_congr rfl rfl rfl
  | param k =>
    cases r with
    | param j =>
      have hjk : j.val ≠ k.val := fun h => hq (by rw [Fin.ext h])
      simp [State.readReg, State.writeReg, Vector.getElem_set_ne, hjk]
    | cmd => exact absurd rfl hcmd
    | _ => rfl
  | _ => cases r <;> simp_all [State.readReg, State.writeReg]

/-- Settles O42. -/
theorem registersReadBack : Obligations.RegistersReadBack := fun s _ v hcmd hstatus =>
  ⟨readReg_writeReg_same s v hcmd hstatus, fun _ hq => readReg_writeReg_other s v hcmd hq, rfl⟩

/-- Settles O44: the write truncates to 32 bits, acceptance latches the stored value, and a zero length is the first
test of HASH_LONG's check. -/
theorem longOutlenRegister : Obligations.LongOutlenRegister := by
  refine ⟨fun s v => setWidth_low32 v, fun s v w => BitVec.toNat_setWidth 32 v, fun s hlen => ?_, fun _ => rfl⟩
  have hcheck : s.check .hashLong = .invalidOutputLength := by
    simp [State.check, State.checkHashLong, hlen]
  rw [exec_eq, hcheck]
  exact conclude_error _ _ _ (by decide)

/-! ### What a command leaves -/

/-- Settles O38: a command changes the session, the memory, ERR and BUSY (`exec_next`), and no register but STATUS
shows any of these. -/
theorem commandsKeepRegisters : Obligations.CommandsKeepRegisters := by
  intro i s t h
  rcases exec_next h with ⟨-, rfl⟩ | ⟨-, rfl⟩ <;>
    exact ⟨rfl, rfl, rfl, rfl, rfl, rfl, rfl, rfl, fun _ hr => readReg_of_regs_eq hr rfl⟩

/-- A command reads no operand register: it has its copies in the latch (R35). -/
theorem exec_withRegs {i : Instr} {s t : State} (g : Regs) (h : exec i s = .next t) :
    exec i { s with regs := g } = .next { t with regs := g } := by
  have hcheck : State.check { s with regs := g } i = s.check i := by cases i <;> rfl
  have hctx : effectCtx i { s with regs := g } = effectCtx i s := by cases i <;> rfl
  have hmem : effectMem i { s with regs := g } = effectMem i s := by cases i <;> rfl
  rw [exec_eq, hcheck, hctx, hmem]
  rcases exec_next h with ⟨hok, rfl⟩ | ⟨herr, rfl⟩
  · rw [hok]
    rfl
  · exact conclude_error _ _ _ herr

/-- The completion step neither reads nor writes the operand registers (R35, R54). -/
theorem engineMove_withRegs {s t : State} (g : Regs) (h : s.engineMove = .next t) :
    State.engineMove { s with regs := g } = .next { t with regs := g } := by
  obtain ⟨hreset, ⟨hbusy, rfl⟩ | ⟨hbusy, ⟨e, hdecode⟩, rfl⟩ | ⟨hbusy, i, hdecode, hexec⟩⟩ := engineMove_next h
  · simp [State.engineMove, hreset, hbusy]
  · simp [State.engineMove, State.completeCommand, hreset, hbusy, hdecode, State.raise]
  · simpa [State.engineMove, State.completeCommand, hreset, hbusy, hdecode] using exec_withRegs g hexec

theorem engineMove_regs {s t : State} (h : s.engineMove = .next t) : t.regs = s.regs := by
  obtain ⟨-, ⟨-, rfl⟩ | ⟨-, -, rfl⟩ | ⟨-, i, -, hexec⟩⟩ := engineMove_next h
  · rfl
  · rfl
  · exact (commandsKeepRegisters i s t hexec).1

/-- Settles O49: a write to a register other than CMD updates the stored registers only, and the completion step
neither reads nor writes those. -/
theorem busyRegisterWritesWait : Obligations.BusyRegisterWritesWait := by
  intro s t r v _ hcmd h
  obtain ⟨f, hf⟩ := writeReg_updates_regs v hcmd
  rw [hf, hf, engineMove_regs h]
  exact engineMove_withRegs (f s.regs) h

/-! ### STATUS (R16, R95) -/

/-- The fields of STATUS do not overlap, so the word is their sum. -/
theorem status_toNat (s : State) :
    s.status.toNat = s.busy.toNat + 2 * s.ctx.phase.code.toNat + 8 * s.err.code.toNat := by
  have hfields : ∀ (b : Bool) (p : BitVec 2) (e : BitVec 4),
      ((BitVec.ofBool b).setWidth 64 ||| (p.setWidth 64 <<< 1) ||| (e.setWidth 64 <<< 3) : Word).toNat =
        b.toNat + 2 * p.toNat + 8 * e.toNat := by decide
  exact hfields s.busy s.ctx.phase.code s.err.code

/-- An aligned 8-byte access in the register block is permitted (R45). -/
theorem accessRefusal_eq_none (p : Platform) {off : Nat} (hoff : off < 256) (haligned : off % 8 = 0) :
    p.accessRefusal (p.base + off) 8 = none := by
  simp [Platform.accessRefusal, Platform.inBlock, Platform.aligned, hoff, haligned]

/-- A permitted load of the register at its offset changes nothing but what the host sees (R45). -/
theorem hostAccess_regLoad (s : State) (r : Reg) :
    s.hostAccess (.regLoad (s.platform.base + r.offset) 8) = .next { s with response := some (.reg (s.readReg r)) } := by
  have hrange := offset_range r
  have hnone := accessRefusal_eq_none s.platform (off := r.offset) (by omega) hrange.1
  have hslot : s.platform.slot (s.platform.base + r.offset) = r.offset / 8 := by simp [Platform.slot]
  simp only [State.hostAccess, hnone, hslot, State.readSlot, ofSlot_offset]

/-- Settles O45: the word is the sum of its fields (`status_toNat`), and each clause on the moves is the lemma of that
move. -/
theorem statusWord : Obligations.StatusWord := by
  refine ⟨fun s => ⟨?_, rfl⟩, fun _ _ => rfl, fun s => hostAccess_regLoad s .status, fun _ _ => ⟨rfl, rfl⟩,
    fun i s t h => ?_, fun p => ?_⟩
  · rw [status_toNat]
    congr 2
    · cases s.busy <;> rfl
    · cases s.ctx.phase <;> rfl
    · cases s.err <;> rfl
  · rcases exec_next h with ⟨hcheck, rfl⟩ | ⟨-, rfl⟩
    · exact ⟨rfl, hcheck.symm⟩
    · exact ⟨rfl, rfl⟩
  · exact (status_congr (s := State.reset) rfl rfl rfl).trans (by decide)

/-! ### The session and the host (R27, R37) -/

/-- Settles O59: of the session a host sees STATUS.PHASE only. -/
theorem sessionIsHidden : Obligations.SessionIsHidden := by
  intro s c hphase
  have hreg (r : Reg) : State.readReg { s with ctx := c } r = s.readReg r := by
    cases r with
    | status => exact status_congr rfl rfl hphase
    | _ => rfl
  have hslot : State.readSlot { s with ctx := c } = s.readSlot := by
    funext k
    simp only [State.readSlot, hreg]
  simp only [observe, hslot]

end Sys2Proof.Proofs
end

section
/-!
PROOFS. The session context (spec/10_state.md rules R26, R30, R32, R33, R37): the finalization flags, the last-node flag
and the digest length that each command leaves, and which commands read the session.
-/

namespace Sys2Proof.Proofs

open Sys2Proof.Machine Sys2Proof.Safety

/-! ### A command that succeeds -/

/-- A command that succeeds has passed its check and leaves exactly its effect. -/
theorem exec_success {i : Instr} {s t : State} (h : exec i s = .next t) (hok : t.err = .ok) :
    s.check i = .ok ∧ t.ctx = effectCtx i s ∧ t.mem = effectMem i s := by
  rcases exec_next h with ⟨hcheck, rfl⟩ | ⟨hcheck, rfl⟩
  · exact ⟨hcheck, rfl, rfl⟩
  · exact absurd hok hcheck

/-! ### What a passed check says -/

/-- A block that `PBcheck` admits has a digest length in 1..64 (R68). -/
theorem checkParams_ok_digestLength {pb : List Byte} (h : checkParams pb = .ok) :
    1 ≤ (pb.getD 0 0).toNat ∧ (pb.getD 0 0).toNat ≤ 64 := by
  have hrange : ¬ (pb.getD 0 0 = 0 ∨ 64 < (pb.getD 0 0).toNat) := fun hbad => by
    rw [checkParams, if_pos hbad] at h
    cases h
  obtain ⟨hne, hle⟩ := not_or.mp hrange
  have hne' : (pb.getD 0 0).toNat ≠ 0 := fun h0 => hne (BitVec.eq_of_toNat_eq h0)
  omega

/-- An UPDATE or FINAL that passes its check finds an open session (R80, R96). -/
theorem open_of_check_ok {i : Instr} {s : State} (h : s.check i = .ok) (hi : i = .update ∨ ∃ o, i = .final o) :
    Open s.ctx.phase := by
  rcases hi with rfl | ⟨o, rfl⟩
  · exact (closed_eq_false _).mp ((checkUpdate_ok s).mp h).1
  · exact (closed_eq_false _).mp ((checkFinal_ok s o).mp h).1

/-- An open session has left phase Uninitialized. -/
theorem ne_uninitialized_of_open {p : Phase} (h : Open p) : p ≠ .uninitialized := by
  rcases h with rfl | rfl <;> decide

/-- Every range a command writes is admitted when its check passes (R96 group 4). -/
theorem admits_of_check_ok {i : Instr} {s : State} (h : s.check i = .ok) :
    ∀ r ∈ s.writeRanges i, s.platform.admits r = true := by
  have hranges (hr : s.rangeFault i = false) : ∀ r ∈ s.writeRanges i, s.platform.admits r = true := fun r hmem =>
    (rangeFault_eq_false s i).mp hr r (List.mem_append_right _ hmem)
  cases i with
  | init o k sl pl => exact hranges ((checkInit_ok s o k sl pl).mp h).2.2.2
  | initParams ln => intro r hr; cases hr
  | update => exact hranges ((checkUpdate_ok s).mp h).2
  | final o => exact hranges ((checkFinal_ok s o).mp h).2.2
  | hash o k sl pl => exact hranges ((checkHash_ok s o k sl pl).mp h).2.2.2
  | hashLong => exact hranges ((checkHashLong_ok s).mp h).2

/-! ### The fields of a session -/

section Absorb
variable (c : Session) (bytes : List Byte)

@[simp] theorem absorb_f0 : (c.absorb bytes).f0 = c.f0 := (Session.absorb_frame c bytes).1
@[simp] theorem absorb_f1 : (c.absorb bytes).f1 = c.f1 := (Session.absorb_frame c bytes).2.1
@[simp] theorem absorb_outlen : (c.absorb bytes).outlen = c.outlen := (Session.absorb_frame c bytes).2.2.1
@[simp] theorem absorb_lastNode : (c.absorb bytes).lastNode = c.lastNode := (Session.absorb_frame c bytes).2.2.2.1
@[simp] theorem absorb_phase : (c.absorb bytes).phase = c.phase := (Session.absorb_frame c bytes).2.2.2.2

end Absorb

section OneShot
variable (o : Nat) (key salt pers message : List Byte)

@[simp] theorem startSession_flags : (startSession o key salt pers).f0 = 0 ∧ (startSession o key salt pers).f1 = 0 := by
  simp [startSession]

/-- A one-shot hash ends with the flags of a final compression of a session without the last-node flag (R88). -/
@[simp] theorem oneShot_f0 : (oneShot o key salt pers message).f0 = finalF0 := rfl
@[simp] theorem oneShot_lastNode : (oneShot o key salt pers message).lastNode = false := by simp [oneShot]
@[simp] theorem oneShot_f1 : (oneShot o key salt pers message).f1 = 0 := by
  simp [oneShot, finalF1]

theorem oneShot_outlen (ho : o < 256) : (oneShot o key salt pers message).outlen = o := by
  simp [oneShot, startSession_outlen o key salt pers ho]

end OneShot

/-! ### The last inner hash of HASH_LONG (R90, R91) -/

/-- The length of the last inner hash of HASH_LONG for an output of `total` bytes (R91); `total` itself up to 64. -/
def lastInnerLength (total : Nat) : Nat := total - 32 * ((total + 31) / 32 - 2)

theorem lastInnerLength_of_le {total : Nat} (h : total ≤ 64) : lastInnerLength total = total := by
  simp only [lastInnerLength]
  omega

theorem lastInnerLength_eq_ite (total : Nat) :
    lastInnerLength total = if total ≤ 64 then total else total - 32 * ((total + 31) / 32 - 2) := by
  split
  next hshort => exact lastInnerLength_of_le hshort
  next => rfl

/-- A turn of the loop of R90 does not change it. -/
theorem lastInnerLength_sub {total : Nat} (h : 64 < total) : lastInnerLength (total - 32) = lastInnerLength total := by
  simp only [lastInnerLength]
  omega

theorem lastInnerLength_le (total : Nat) : lastInnerLength total ≤ 64 := by
  simp only [lastInnerLength]
  omega

/-- With enough fuel, the chain leaves the session of an inner hash of the last length. -/
theorem longLoop_session (fuel : Nat) (v out : List Byte) (rem : Nat) (hfuel : rem ≤ 32 * fuel + 64) :
    ∃ w, (longLoop fuel v out rem).1 = hashSession (lastInnerLength rem) w := by
  induction fuel generalizing v out rem with
  | zero => exact ⟨v, by rw [lastInnerLength_of_le (by omega), longLoop]⟩
  | succ fuel ih =>
    simp only [longLoop]
    split
    next hlong =>
      rw [← lastInnerLength_sub hlong]
      exact ih _ _ _ (by omega)
    next hlast => exact ⟨v, by rw [lastInnerLength_of_le (by omega)]⟩

/-- HASH_LONG leaves the session of its last inner hash. -/
theorem hashLongOutput_session (len : BitVec 32) (x : List Byte) :
    ∃ w, (hashLongOutput len x).1 = hashSession (lastInnerLength len.toNat) w := by
  simp only [hashLongOutput]
  split
  next hshort => exact ⟨_, by rw [lastInnerLength_of_le hshort]⟩
  next hlong =>
    rw [← lastInnerLength_sub (by omega)]
    exact longLoop_session _ _ _ _ (by omega)

/-- HASH_LONG leaves the flags and the digest length of a one-shot hash of the last length. -/
theorem hashLongOutput_fields (len : BitVec 32) (x : List Byte) :
    (hashLongOutput len x).1.f0 = finalF0 ∧ (hashLongOutput len x).1.f1 = 0 ∧
      (hashLongOutput len x).1.lastNode = false ∧ (hashLongOutput len x).1.outlen = lastInnerLength len.toNat := by
  obtain ⟨w, hw⟩ := hashLongOutput_session len x
  have hle := lastInnerLength_le len.toNat
  rw [hw, hashSession]
  exact ⟨oneShot_f0 .., oneShot_f1 .., oneShot_lastNode .., oneShot_outlen _ _ _ _ _ (by omega)⟩

/-! ### Starting a session -/

/-- INIT, INIT_PARAMS, HASH and HASH_LONG leave a session that meets the session invariant, whatever the session was
before. -/
theorem effectCtx_inv_of_starting {i : Instr} {s : State} (hupdate : i ≠ .update) (hfinal : ∀ o, i ≠ .final o)
    (h : s.check i = .ok) : SessionInv (effectCtx i s) := by
  cases i with
  | init o k sl pl =>
    obtain ⟨-, ho, -⟩ := (checkInit_ok s o k sl pl).mp h
    obtain ⟨hpos, hle⟩ := (badOutlen_eq_false o).mp ho
    exact startSession_inv _ _ _ _ hpos hle
  | initParams ln =>
    obtain ⟨hpos, hle⟩ := checkParams_ok_digestLength h
    exact ctxInit_inv _ _ hpos hle
  | update => exact absurd rfl hupdate
  | final o => exact absurd rfl (hfinal o)
  | hash o k sl pl =>
    obtain ⟨-, ho, -⟩ := (checkHash_ok s o k sl pl).mp h
    obtain ⟨hpos, hle⟩ := (badOutlen_eq_false o).mp ho
    exact oneShot_inv _ _ _ _ _ hpos hle
  | hashLong => exact hashLongOutput_inv _ _ ((checkHashLong_ok s).mp h).1

/-- After a successful command the session is in a phase other than Uninitialized (R80). -/
theorem effectCtx_phase_ne (i : Instr) (s : State) : (effectCtx i s).phase ≠ .uninitialized := by
  cases i <;> simp [effectCtx]

/-! ### The flags (R26, R30, R33) -/

/-- Settles O27: a successful command leaves the flags of its effect, and the effect's session is described operation by
operation. -/
theorem finalizationFlags : Obligations.FinalizationFlags := by
  intro i s t h hok
  obtain ⟨-, hctx, -⟩ := exec_success h hok
  rw [hctx]
  cases i with
  | init o k sl pl => exact startSession_flags _ _ _ _
  | initParams ln => exact ⟨rfl, rfl⟩
  | update => exact ⟨absorb_f0 _ _, absorb_f1 _ _⟩
  | final o => exact ⟨rfl, rfl⟩
  | hash o k sl pl => exact ⟨rfl, oneShot_f1 _ _ _ _ _⟩
  | hashLong =>
    obtain ⟨hf0, hf1, -⟩ := hashLongOutput_fields s.latch.longLen s.messageBytes
    exact ⟨hf0, hf1⟩

/-- Settles O28, in the same way. -/
theorem lastNodeFlag : Obligations.LastNodeFlag := by
  refine ⟨fun i s t h hok => ?_, fun _ => rfl⟩
  obtain ⟨-, hctx, -⟩ := exec_success h hok
  rw [hctx]
  cases i with
  | init o k sl pl => exact startSession_lastNode _ _ _ _
  | initParams ln => rfl
  | update => exact absorb_lastNode _ _
  | final o => exact ⟨rfl, rfl⟩
  | hash o k sl pl => exact oneShot_lastNode _ _ _ _ _
  | hashLong => exact (hashLongOutput_fields s.latch.longLen s.messageBytes).2.2.1

/-! ### The digest length (R32) -/

/-- A parameter block's first byte, read from the list of its bytes. -/
theorem getD_zero_toList (pb : Vector Byte 64) : pb.toList.getD 0 0 = pb[0] := by
  simp [List.getD]

/-- OUTLEN has seven bits, so it is a byte. -/
theorem outlenField_lt (o : BitVec 7) : o.toNat < 256 := by omega

/-- The digest length a successful command leaves is in 1..64, if that of an open session is. -/
theorem effectCtx_outlen_range {i : Instr} {s : State} (h : s.check i = .ok)
    (hs : s.ctx.phase ≠ .uninitialized → 1 ≤ s.ctx.outlen ∧ s.ctx.outlen ≤ 64) :
    1 ≤ (effectCtx i s).outlen ∧ (effectCtx i s).outlen ≤ 64 := by
  cases i with
  | update =>
    have hopen := open_of_check_ok h (.inl rfl)
    simpa [effectCtx] using hs (ne_uninitialized_of_open hopen)
  | final o =>
    have hopen := open_of_check_ok h (.inr ⟨o, rfl⟩)
    exact hs (ne_uninitialized_of_open hopen)
  | _ =>
    have hinv := effectCtx_inv_of_starting (by simp) (by simp) h
    exact ⟨hinv.outlen_pos (effectCtx_phase_ne _ _), hinv.outlen_le⟩

/-- Settles O29: the length left is that of the effect's session, the range is kept by `effectCtx_outlen_range`, and
FINAL stores the first bytes of the digest of the final compression. -/
theorem sessionDigestLength : Obligations.SessionDigestLength := by
  refine ⟨fun i s t h hok => ?_, fun i s t h hs => ?_, fun _ => rfl⟩
  · obtain ⟨-, hctx, hmem⟩ := exec_success h hok
    rw [hctx]
    cases i with
    | init o k sl pl => exact startSession_outlen _ _ _ _ (outlenField_lt o)
    | initParams ln => exact congrArg BitVec.toNat (getD_zero_toList s.latch.pb)
    | update => exact absorb_outlen _ _
    | final o => exact ⟨rfl, s.ctx.finish.digest.take s.ctx.outlen, rfl, fun hle => by simp [hle], hmem⟩
    | hash o k sl pl => exact oneShot_outlen _ _ _ _ _ (outlenField_lt o)
    | hashLong =>
      obtain ⟨-, -, -, houtlen⟩ := hashLongOutput_fields s.latch.longLen s.messageBytes
      exact houtlen.trans (lastInnerLength_eq_ite _)
  · rcases exec_next h with ⟨hcheck, rfl⟩ | ⟨-, rfl⟩
    · exact fun _ => effectCtx_outlen_range hcheck hs
    · exact hs

/-! ### Which commands read the session (R37) -/

/-- A starting command reads nothing of the session: neither its check nor its effect depends on it. -/
theorem starting_ignores_session {i : Instr} (hupdate : i ≠ .update) (hfinal : ∀ o, i ≠ .final o) (s : State)
    (c : Session) :
    State.check { s with ctx := c } i = s.check i ∧ effectCtx i { s with ctx := c } = effectCtx i s ∧
      effectMem i { s with ctx := c } = effectMem i s := by
  cases i with
  | update => exact absurd rfl hupdate
  | final o => exact absurd rfl (hfinal o)
  | _ => exact ⟨rfl, rfl, rfl⟩

/-- UPDATE and FINAL without an open session raise InvalidState, their first test (R96 group 2). -/
theorem check_eq_invalidState {i : Instr} {s : State} (hi : i = .update ∨ ∃ o, i = .final o)
    (hclosed : s.ctx.phase.closed = true) : s.check i = .invalidState := by
  rcases hi with rfl | ⟨o, rfl⟩
  · simp [State.check, State.checkUpdate, hclosed]
  · simp [State.check, State.checkFinal, hclosed]

/-- Settles O37: a starting command ends alike from both sessions, since its check and its effect are the same; UPDATE
and FINAL fail their first test. -/
theorem sessionIsNotReadBeforeInit : Obligations.SessionIsNotReadBeforeInit := by
  refine fun s c i => ⟨fun hupdate hfinal => ?_, fun hphase hi => ?_⟩
  · obtain ⟨hcheck, hctx, hmem⟩ := starting_ignores_session hupdate hfinal s c
    rcases exec_cases i s with ⟨hok, hexec⟩ | ⟨herr, hexec⟩
    · refine ⟨_, _, hexec, ?_, rfl, rfl, fun _ => rfl⟩
      rw [exec_eq, hcheck, hctx, hmem, hok]
      rfl
    · refine ⟨_, State.raise { s with ctx := c } (s.check i), hexec, ?_, rfl, rfl, fun hok => absurd hok herr⟩
      rw [exec_eq, hcheck]
      exact conclude_error _ _ _ herr
  · have hcheck : State.check { s with ctx := c } i = .invalidState :=
      check_eq_invalidState hi (by rw [hphase]; rfl)
    rw [exec_eq, hcheck]
    exact conclude_error _ _ _ (by decide)

end Sys2Proof.Proofs
end

section
/-!
PROOFS. The invariant of the machine (spec/10_state.md rules R31, R32, R38, R39; spec/20_memory.md rule R40;
spec/60_exceptions.md rule R98): what each agent's move keeps.
-/

namespace Sys2Proof.Proofs

open Sys2Proof.Machine Sys2Proof.Safety

/-! ### A command that passes its check -/

/-- The session a successful command leaves meets the session invariant: a starting command makes a new one, and UPDATE
and FINAL find an open session that meets it. -/
theorem effectCtx_inv {i : Instr} {s : State} (hctx : SessionInv s.ctx) (h : s.check i = .ok) :
    SessionInv (effectCtx i s) := by
  cases i with
  | update =>
    have hopen := open_of_check_ok h (.inl rfl)
    refine Session.enter_absorbing_inv _ (Session.absorb_inv _ _ hctx hopen) ?_
    rwa [absorb_phase]
  | final o =>
    have hopen := open_of_check_ok h (.inr ⟨o, rfl⟩)
    exact Session.finish_inv _ hctx.buflen_le (hctx.outlen_pos (ne_uninitialized_of_open hopen)) hctx.outlen_le
  | _ => exact effectCtx_inv_of_starting (by simp) (by simp) h

/-- The memory a successful command leaves is canonical and in the address space: it stores exactly its admitted
output range (R41). -/
theorem effectMem_inv {i : Instr} {s : State} (hs : StateInv s) (h : s.check i = .ok) :
    (effectMem i s).wf ∧ (effectMem i s).inSpace := by
  have hadmits := admits_of_check_ok h
  have hstore (bs : List Byte) (hbs : ⟨s.latch.dst.toNat, bs.length⟩ ∈ s.writeRanges i) :=
    storeOutput_inv s bs hs.mem_wf hs.mem_inSpace (hadmits _ hbs)
  cases i with
  | init o k sl pl => exact ⟨hs.mem_wf, hs.mem_inSpace⟩
  | initParams ln => exact ⟨hs.mem_wf, hs.mem_inSpace⟩
  | update => exact ⟨hs.mem_wf, hs.mem_inSpace⟩
  | final o =>
    refine hstore _ ?_
    simp [State.writeRanges, hs.session.outlen_le]
  | hash o k sl pl =>
    obtain ⟨-, ho, -⟩ := (checkHash_ok s o k sl pl).mp h
    refine hstore _ ?_
    simp [State.writeRanges, ((badOutlen_eq_false o).mp ho).2]
  | hashLong =>
    refine hstore _ ?_
    simp [State.writeRanges, hashLongOutput_length]

/-! ### The moves -/

/-- A failed command keeps the invariant (R97): it changes ERR and BUSY only. -/
theorem raise_inv {s : State} (hs : StateInv s) (e : ErrCode) : StateInv (s.raise e) :=
  ⟨hs.mem_wf, hs.mem_inSpace, hs.session, fun hb => by cases hb⟩

theorem exec_inv {i : Instr} {s t : State} (hs : StateInv s) (h : exec i s = .next t) : StateInv t := by
  rcases exec_next h with ⟨hcheck, rfl⟩ | ⟨-, rfl⟩
  · obtain ⟨hwf, hspace⟩ := effectMem_inv hs hcheck
    exact ⟨hwf, hspace, effectCtx_inv hs.session hcheck, fun _ => rfl⟩
  · exact raise_inv hs _

theorem engineMove_inv {s t : State} (hs : StateInv s) (h : s.engineMove = .next t) : StateInv t := by
  obtain ⟨-, ⟨-, rfl⟩ | ⟨-, -, rfl⟩ | ⟨-, i, -, hexec⟩⟩ := engineMove_next h
  · exact hs
  · exact raise_inv hs _
  · exact exec_inv hs hexec

/-- The session after reset (R111) meets the session invariant. -/
theorem sessionReset_inv : SessionInv Session.reset where
  buflen_le := by decide
  outlen_le := by decide
  outlen_pos hp := absurd rfl hp
  open_flags _ := ⟨rfl, rfl⟩
  open_counter _ := rfl
  open_empty _ _ := rfl
  closed_flags hp := by cases hp

/-- Drawing a list of ranges keeps memory canonical and in the address space. -/
theorem foldl_scramble_inv (rs : List Range) (s : State) (hwf : s.mem.wf) (hspace : s.mem.inSpace) :
    (rs.foldl State.scramble s).mem.wf ∧ (rs.foldl State.scramble s).mem.inSpace := by
  induction rs generalizing s with
  | nil => exact ⟨hwf, hspace⟩
  | cons r rs ih =>
    obtain ⟨hwf', hspace'⟩ := scramble_inv s r hwf hspace
    exact ih _ hwf' hspace'

theorem applyReset_inv {s : State} (hs : StateInv s) : StateInv s.applyReset := by
  have hmem : s.abandon.mem.wf ∧ s.abandon.mem.inSpace := by
    simp only [State.abandon]
    split
    · exact foldl_scramble_inv _ s hs.mem_wf hs.mem_inSpace
    · exact ⟨hs.mem_wf, hs.mem_inSpace⟩
  exact ⟨hmem.1, hmem.2, sessionReset_inv, fun _ => rfl⟩

/-- A register write touches neither memory nor session, and the only one that sets BUSY, an acceptance, clears ERR
(R93). -/
theorem writeReg_inv {s : State} (hs : StateInv s) (r : Reg) (v : Word) : StateInv (s.writeReg r v) := by
  have hkeep (g : Regs) : StateInv { s with regs := g } := ⟨hs.mem_wf, hs.mem_inSpace, hs.session, hs.busy_err⟩
  cases r with
  | cmd =>
    simp only [State.writeReg]
    split
    · exact hs
    · exact ⟨hs.mem_wf, hs.mem_inSpace, hs.session, fun _ => rfl⟩
  | status => exact hs
  | _ => exact hkeep _

theorem writeSlot_inv {s : State} (hs : StateInv s) (k : Nat) (v : Word) : StateInv (s.writeSlot k v) := by
  simp only [State.writeSlot]
  split
  · exact writeReg_inv hs _ v
  · exact hs

theorem hostAccess_inv {s t : State} {a : Access} (hs : StateInv s) (h : s.hostAccess a = .next t) : StateInv t := by
  obtain ⟨r, rfl⟩ | ⟨k, v, rfl⟩ | ⟨addr, bytes, hle, rfl⟩ := hostAccess_next h
  · exact ⟨hs.mem_wf, hs.mem_inSpace, hs.session, hs.busy_err⟩
  · exact writeSlot_inv hs k v
  · exact ⟨Memory.writeBytes_wf _ _ _ hs.mem_wf, Memory.writeBytes_inSpace _ _ _ hs.mem_inSpace hle, hs.session,
      hs.busy_err⟩

/-- Settles O54: each agent's move keeps the invariant, and taking the move off the schedule touches nothing it
speaks of. -/
theorem stepKeepsInvariant : Obligations.StepKeepsInvariant := by
  intro s t hs h
  have hpop : StateInv s.popMove := ⟨hs.mem_wf, hs.mem_inSpace, hs.session, hs.busy_err⟩
  obtain ⟨-, hengine⟩ | ⟨-, rfl⟩ | ⟨a, -, -, hhost⟩ := step_next h
  · exact engineMove_inv hpop hengine
  · exact applyReset_inv hpop
  · exact hostAccess_inv hpop hhost

end Sys2Proof.Proofs
end

section
/-!
PROOFS. Memory and the accesses to it (spec/20_memory.md rules R40, R41, R43, R45, R50, R54): the ranges a command may
use, which moves change memory, host duty 2, the byte order of a command word, and register accesses.
-/

namespace Sys2Proof.Proofs

open Sys2Proof.Machine Sys2Proof.Safety

/-! ### The admitted ranges (R41) and the check of a command's ranges (R96 group 4) -/

theorem admits_iff (p : Platform) (a n : Nat) :
    p.admits ⟨a, n⟩ = true ↔ n = 0 ∨ (a + n ≤ 2 ^ 64 ∧ ∀ i < n, p.memAdmits (a + i) = true) := by
  simp [Platform.admits, Config.memSize, Config.addrW]

/-- A range that is not admitted makes the range test of the check apply. -/
theorem rangeFault_of_not_admitted {s : State} {i : Instr} (h : ∃ r ∈ s.ranges i, s.platform.admits r = false) :
    s.rangeFault i = true := by
  obtain ⟨r, hr, hbad⟩ := h
  by_contra hfault
  have hgood := (rangeFault_eq_false s i).mp (Bool.eq_false_iff.mpr hfault) r hr
  rw [hbad] at hgood
  cases hgood

/-- The range test is part of every check (R96 group 4); INIT_PARAMS has no range to test. -/
theorem rangeFault_of_check_ok {i : Instr} {s : State} (h : s.check i = .ok) : s.rangeFault i = false := by
  cases i with
  | init o k sl pl => exact ((checkInit_ok s o k sl pl).mp h).2.2.2
  | initParams ln => rfl
  | update => exact ((checkUpdate_ok s).mp h).2
  | final o => exact ((checkFinal_ok s o).mp h).2.2
  | hash o k sl pl => exact ((checkHash_ok s o k sl pl).mp h).2.2.2
  | hashLong => exact ((checkHashLong_ok s).mp h).2

/-- A command whose check names an error ends with that error and changes nothing else (R97). -/
theorem exec_of_check_error {i : Instr} {s : State} {e : ErrCode} (h : s.check i = e) (he : e ≠ .ok) :
    exec i s = .next (failedWith s e) := by
  rw [exec_eq, h]
  exact conclude_error _ _ _ he

/-- The value tests that INIT and HASH share pass on operands in range (R96 groups 1 and 3). -/
theorem lengthTests_pass {o k : BitVec 7} {sl pl : BitVec 5}
    (h : sl.toNat ≤ 16 ∧ pl.toNat ≤ 16 ∧ 1 ≤ o.toNat ∧ o.toNat ≤ 64 ∧ k.toNat ≤ 64) :
    badLengths sl pl = false ∧ badOutlen o = false ∧ badKeylen k = false := by
  obtain ⟨hsl, hpl, ho, ho', hk⟩ := h
  exact ⟨(badLengths_eq_false sl pl).mpr ⟨hsl, hpl⟩, (badOutlen_eq_false o).mpr ⟨ho, ho'⟩,
    (badKeylen_eq_false k).mpr hk⟩

/-- Settles O23: the range test is in every check, so a range that is not admitted fails the check; and it is the last
test, so BusError is the name where the earlier ones pass. -/
theorem rangesAreCheckedFirst : Obligations.RangesAreCheckedFirst := by
  refine ⟨admits_iff, fun s i hrange => ?_⟩
  have hfault := rangeFault_of_not_admitted hrange
  have herr : s.check i ≠ .ok := fun hok => by
    rw [rangeFault_of_check_ok hok] at hfault
    cases hfault
  refine ⟨⟨_, herr, exec_of_check_error rfl herr⟩, fun hearlier => exec_of_check_error ?_ (by decide)⟩
  cases i with
  | init o k sl pl =>
    obtain ⟨hlen, hout, hkey⟩ := lengthTests_pass hearlier
    simp [State.check, State.checkInit, hlen, hout, hkey, hfault]
  | initParams ln => cases hfault
  | update =>
    have hopen := (closed_eq_false _).mpr hearlier
    simp [State.check, State.checkUpdate, hopen, hfault]
  | final o =>
    have hopen := (closed_eq_false _).mpr hearlier.1
    simp [State.check, State.checkFinal, hopen, hearlier.2, hfault]
  | hash o k sl pl =>
    obtain ⟨hlen, hout, hkey⟩ := lengthTests_pass hearlier
    simp [State.check, State.checkHash, hlen, hout, hkey, hfault]
  | hashLong =>
    have hlen : s.latch.longLen ≠ 0 := hearlier
    simpa [State.check, State.checkHashLong, hfault] using hlen

/-! ### The moves and memory (R40, R54, R111) -/

/-- A register write touches neither memory nor the platform: acceptance copies registers only (R93). -/
theorem writeReg_mem_platform (s : State) (r : Reg) (v : Word) :
    (s.writeReg r v).mem = s.mem ∧ (s.writeReg r v).platform = s.platform := by
  cases r with
  | cmd =>
    simp only [State.writeReg]
    split <;> exact ⟨rfl, rfl⟩
  | _ => exact ⟨rfl, rfl⟩

theorem writeSlot_mem_platform (s : State) (k : Nat) (v : Word) :
    (s.writeSlot k v).mem = s.mem ∧ (s.writeSlot k v).platform = s.platform := by
  simp only [State.writeSlot]
  split
  · exact writeReg_mem_platform s _ v
  · exact ⟨rfl, rfl⟩

theorem engineMove_platform {s t : State} (h : s.engineMove = .next t) : t.platform = s.platform := by
  obtain ⟨-, ⟨-, rfl⟩ | ⟨-, -, rfl⟩ | ⟨-, i, -, hexec⟩⟩ := engineMove_next h
  · rfl
  · rfl
  · rcases exec_next hexec with ⟨-, rfl⟩ | ⟨-, rfl⟩ <;> rfl

/-- An idle engine's move does nothing (log 12). -/
theorem engineMove_of_idle {s t : State} (hbusy : s.busy = false) (h : s.engineMove = .next t) : t = s := by
  obtain ⟨-, ⟨-, rfl⟩ | ⟨hb, -⟩ | ⟨hb, -⟩⟩ := engineMove_next h
  · rfl
  · rw [hbusy] at hb; cases hb
  · rw [hbusy] at hb; cases hb

/-- A reset of an idle engine abandons no command (R111). -/
theorem abandon_of_idle {s : State} (hbusy : s.busy = false) : s.abandon = s := by
  simp [State.abandon, hbusy]

theorem hostAccess_platform {s t : State} {a : Access} (h : s.hostAccess a = .next t) : t.platform = s.platform := by
  obtain ⟨r, rfl⟩ | ⟨k, v, rfl⟩ | ⟨addr, bytes, -, rfl⟩ := hostAccess_next h
  · rfl
  · exact (writeSlot_mem_platform s k v).2
  · rfl

/-- A host access that changes memory is a store to host memory. -/
theorem memStore_of_hostAccess_mem_ne {s t : State} {a : Access} (h : s.hostAccess a = .next t)
    (hmem : t.mem ≠ s.mem) : ∃ addr bytes, a = .memStore addr bytes := by
  cases a with
  | memStore addr bytes => exact ⟨addr, bytes, rfl⟩
  | regLoad addr width =>
    simp only [State.hostAccess] at h
    split at h <;> cases h
    exact absurd rfl hmem
  | regStore addr width value =>
    simp only [State.hostAccess] at h
    split at h <;> cases h
    exact absurd (writeSlot_mem_platform s _ value).1 hmem
  | memLoad addr len =>
    simp only [State.hostAccess] at h
    split_ifs at h
    cases h
    exact absurd rfl hmem

/-- Settles O56: by the agent that moves (`step_next`); an idle engine's move and the reset of an idle engine leave
memory, and so does every host access but a memory store. -/
theorem whatChangesMemory : Obligations.WhatChangesMemory := by
  intro s t h
  obtain ⟨hmove, hengine⟩ | ⟨hmove, rfl⟩ | ⟨a, hmove, -, hhost⟩ := step_next h
  · refine ⟨by simpa using engineMove_platform hengine, fun hmem => .inl ⟨hmove, ?_⟩⟩
    by_contra hidle
    rw [engineMove_of_idle (by simpa using hidle) hengine] at hmem
    exact hmem rfl
  · refine ⟨rfl, fun hmem => .inr (.inl ⟨hmove, ?_⟩)⟩
    by_contra hidle
    rw [State.applyReset_mem, abandon_of_idle (by simpa using hidle)] at hmem
    exact hmem rfl
  · refine ⟨by simpa using hostAccess_platform hhost, fun hmem => .inr (.inr ?_)⟩
    obtain ⟨addr, bytes, rfl⟩ := memStore_of_hostAccess_mem_ne hhost hmem
    exact ⟨addr, bytes, hmove⟩

/-! ### Host memory accesses while a command runs (R50) -/

/-- A range shares a byte with another exactly when one of its bytes lies in it. -/
theorem overlaps_iff (a n : Nat) (r : Range) :
    Range.overlaps ⟨a, n⟩ r = true ↔ ∃ j, j < n ∧ r.addr ≤ a + j ∧ a + j < r.addr + r.len := by
  simp only [Range.overlaps, Bool.and_eq_true, decide_eq_true_eq]
  constructor
  · rintro ⟨⟨⟨hn, hlen⟩, hlow⟩, hhigh⟩
    exact ⟨r.addr - a, by omega⟩
  · rintro ⟨j, hj⟩
    omega

theorem any_overlaps_of_touches {a n : Nat} {rs : List Range}
    (h : ∃ j, j < n ∧ ∃ r ∈ rs, r.addr ≤ a + j ∧ a + j < r.addr + r.len) :
    rs.any (Range.overlaps ⟨a, n⟩) = true := by
  obtain ⟨j, hj, r, hr, hin⟩ := h
  exact List.any_eq_true.mpr ⟨r, hr, (overlaps_iff a n r).mpr ⟨j, hj, hin⟩⟩

theorem any_overlaps_of_clear {a n : Nat} {rs : List Range}
    (h : ∀ j, j < n → ∀ r ∈ rs, a + j < r.addr ∨ r.addr + r.len ≤ a + j) :
    rs.any (Range.overlaps ⟨a, n⟩) = false := by
  refine List.any_eq_false.mpr fun r hr hover => ?_
  obtain ⟨j, hj, hin⟩ := (overlaps_iff a n r).mp hover
  have hclear := h j hj r hr
  omega

/-- A store to existing host memory: refused on a running command's ranges, a write elsewhere. -/
theorem hostAccess_memStore (s : State) {a : Nat} {bytes : List Byte} (h : a + bytes.length ≤ 2 ^ 64) :
    s.hostAccess (.memStore a bytes) =
      if (s.busyReads ++ s.busyWrites).any (Range.overlaps ⟨a, bytes.length⟩) then .refused .busyRange
      else .next { s with mem := s.mem.writeBytes a bytes } :=
  if_neg (Nat.not_lt.mpr h)

/-- A load of existing host memory: refused on a running command's output range, the bytes elsewhere. -/
theorem hostAccess_memLoad (s : State) {a n : Nat} (h : a + n ≤ 2 ^ 64) :
    s.hostAccess (.memLoad a n) =
      if s.busyWrites.any (Range.overlaps ⟨a, n⟩) then .refused .busyRange
      else .next { s with response := some (.mem (s.mem.readBytes a n)) } :=
  if_neg (Nat.not_lt.mpr h)

/-- The ranges of a running command are those of its row. -/
theorem busyRanges_of_running {s : State} {i : Instr} (hbusy : s.busy = true)
    (hdecode : decodeCommand s.latch.cmd = .ok i) (hcheck : s.check i = .ok) :
    s.busyReads = s.readRanges i ∧ s.busyWrites = s.writeRanges i := by
  simp [State.busyReads, State.busyWrites, hbusy, hdecode, hcheck]

/-- An idle engine, and a command that is illegal or fails its check, use no range (log 8). -/
theorem busyRanges_eq_nil {s : State}
    (h : s.busy = false ∨ ∀ i, decodeCommand s.latch.cmd = .ok i → s.check i ≠ .ok) :
    s.busyReads = [] ∧ s.busyWrites = [] := by
  rcases h with hidle | hfails
  · simp [State.busyReads, State.busyWrites, hidle]
  · simp only [State.busyReads, State.busyWrites]
    constructor <;>
    · split
      · rename_i hdecode
        exact if_neg (hfails _ hdecode)
      · rfl

/-- Settles O48: an access is judged against the running command's ranges, which are those of its row, or none. -/
theorem busyRangesAreLeftAlone : Obligations.BusyRangesAreLeftAlone := by
  refine ⟨fun s i a bytes hbusy hdecode hcheck hbound => ?_, fun s i a n hbusy hdecode hcheck hbound => ?_,
    fun s a n bytes hnone => ?_⟩
  · obtain ⟨hreads, hwrites⟩ := busyRanges_of_running hbusy hdecode hcheck
    rw [hostAccess_memStore s hbound, hreads, hwrites]
    exact ⟨fun htouch => if_pos (any_overlaps_of_touches htouch),
      fun hclear => if_neg (Bool.eq_false_iff.mp (any_overlaps_of_clear hclear))⟩
  · obtain ⟨-, hwrites⟩ := busyRanges_of_running hbusy hdecode hcheck
    rw [hostAccess_memLoad s hbound, hwrites]
    exact ⟨fun htouch => if_pos (any_overlaps_of_touches htouch),
      fun hclear => if_neg (Bool.eq_false_iff.mp (any_overlaps_of_clear hclear))⟩
  · obtain ⟨hreads, hwrites⟩ := busyRanges_eq_nil hnone
    refine ⟨fun hbound => ?_, fun hbound => ?_⟩
    · rw [hostAccess_memStore s hbound, hreads, hwrites]
      rfl
    · rw [hostAccess_memLoad s hbound, hwrites]
      rfl

/-! ### The byte order of a command word (R43, R62) -/

/-- `LE64` at offset 0 reads the first eight bytes only. -/
theorem le64_append {bs : List Byte} (rest : List Byte) (h : bs.length = 8) : le64 (bs ++ rest) 0 = le64 bs 0 := by
  simp only [le64, List.drop_zero]
  rw [List.take_left' h, List.take_of_length_le (Nat.le_of_eq h)]

/-- Settles O6: the first eight bytes give the word back (`le64_bytes64`), and the decoder drops exactly those. -/
theorem commandBytesDecode : Obligations.CommandBytesDecode := by
  intro w rest
  have hword : le64 (bytes64 w ++ rest) 0 = w := (le64_append rest (bytes64_length w)).trans (le64_bytes64 w)
  have hrest : (bytes64 w ++ rest).drop 8 = rest := List.drop_left' (bytes64_length w)
  rw [decodeBytes, if_neg (by simp), hword, hrest]

/-! ### Register accesses (R45) -/

/-- An access inside the register block has a meaning exactly when it has the form R45 asks for. -/
theorem accessRefusal_of_inBlock {p : Platform} {addr : Nat} (width : Nat) (hlow : p.base ≤ addr)
    (hhigh : addr < p.base + 256) :
    p.accessRefusal addr width =
      if width = 8 ∧ (addr - p.base) % 8 = 0 then none else some .registerAccessForm := by
  have hblock : p.inBlock addr = true := by simp [Platform.inBlock, hlow, hhigh]
  by_cases hform : width = 8 ∧ (addr - p.base) % 8 = 0
  · simp [Platform.accessRefusal, Platform.aligned, hblock, hform]
  · have haligned : p.aligned addr width = false := by simpa [Platform.aligned] using hform
    rw [if_neg hform]
    simp [Platform.accessRefusal, hblock, haligned]

/-- Settles O46: inside the block the form alone decides, and a permitted access is that of its slot. -/
theorem registerAccesses : Obligations.RegisterAccesses := by
  intro s addr width v hlow hhigh
  have hform := accessRefusal_of_inBlock width hlow hhigh
  refine ⟨fun hwidth haligned => ?_, fun hbad => ?_⟩
  · rw [if_pos ⟨hwidth, haligned⟩] at hform
    simp [State.hostAccess, hform, Platform.slot]
  · rw [if_neg hbad] at hform
    simp [State.hostAccess, hform]

end Sys2Proof.Proofs
end

section
/-!
PROOFS. The command word (spec/30_encoding.md rules R56, R59 to R61): the rows of the table do not overlap, decoder and
encoder are inverse to each other, and the illegal words are exactly those the decoder refuses.
-/

namespace Sys2Proof.Proofs

open Sys2Proof.Machine Sys2Proof.Safety Sys2Proof.Laws

/-! ### The fields of a word (R56) -/

theorem field_and (w m : Word) (lo len : Nat) : field (w &&& m) lo len = field w lo len &&& field m lo len :=
  BitVec.extractLsb'_and

/-- LN, which R56 gives one bit, is 0 as a field. -/
theorem field_ln_eq_zero (w : Word) : field w 28 1 = 0 ↔ fieldLn w = false := by
  have hln : field w 28 1 = BitVec.ofBool (fieldLn w) := by
    ext i hi
    obtain rfl : i = 0 := by omega
    simp [field, fieldLn]
  rw [hln]
  cases fieldLn w <;> decide

theorem getLsbD_of_field_eq_zero {w : Word} {lo len i : Nat} (h : field w lo len = 0) (hlo : lo ≤ i)
    (hhi : i < lo + len) : w.getLsbD i = false := by
  have hbit : (field w lo len).getLsbD (i - lo) = w.getLsbD i := by
    rw [field, BitVec.getLsbD_extractLsb', decide_eq_true (by omega), Bool.true_and, Nat.add_sub_cancel' hlo]
  rw [← hbit, h]
  exact BitVec.getLsbD_zero

@[simp] theorem fieldLn_encode (op : BitVec 4) (o k : BitVec 7) (s p : BitVec 5) (ln : Bool) :
    fieldLn (encodeFields op o k s p ln) = ln := by
  simp [fieldLn, encodeFields]

/-- The reserved bits of an encoded word are 0. -/
theorem encodeFields_getLsbD_high (op : BitVec 4) (o k : BitVec 7) (s p : BitVec 5) (ln : Bool) {i : Nat}
    (hi : 29 ≤ i) : (encodeFields op o k s p ln).getLsbD i = false := by
  simp only [encodeFields, BitVec.getLsbD_or, BitVec.getLsbD_shiftLeft, BitVec.getLsbD_setWidth]
  rw [BitVec.getLsbD_of_ge op i (by omega), BitVec.getLsbD_of_ge o (i - 4) (by omega),
    BitVec.getLsbD_of_ge k (i - 11) (by omega), BitVec.getLsbD_of_ge s (i - 18) (by omega),
    BitVec.getLsbD_of_ge p (i - 23) (by omega), BitVec.getLsbD_of_ge (BitVec.ofBool ln) (i - 28) (by omega)]
  simp

/-- `enc` of R60 puts a word without reserved bits together again from its fields. -/
theorem encodeFields_fields {w : Word} (hrsv : fieldRsv w = 0) (hrsvh : fieldRsvh w = 0) :
    encodeFields (fieldOp w) (fieldOutlen w) (fieldKeylen w) (fieldSaltlen w) (fieldPerslen w) (fieldLn w) = w := by
  refine BitVec.eq_of_getLsbD_eq fun i hi => ?_
  by_cases hlow : i < 29
  · simp only [encodeFields, fieldOp, fieldOutlen, fieldKeylen, fieldSaltlen, fieldPerslen, fieldLn, field,
      BitVec.getLsbD_or, BitVec.getLsbD_shiftLeft, BitVec.getLsbD_setWidth, BitVec.getLsbD_extractLsb']
    interval_cases i <;> simp
  · rw [encodeFields_getLsbD_high _ _ _ _ _ _ (by omega)]
    by_cases hrange : i < 32
    · exact (getLsbD_of_field_eq_zero hrsv (by omega) (by omega)).symm
    · exact (getLsbD_of_field_eq_zero hrsvh (by omega) (by omega)).symm

/-! ### The rows of the table (R59) -/

/-- A field that a row fixes holds the row's value in every word that matches. -/
theorem field_of_matches {r : OpRow} {w : Word} (h : r.matches w = true) {lo len : Nat} {v : BitVec len}
    (hrow : field r.mask lo len = BitVec.allOnes len ∧ field r.pattern lo len = v) : field w lo len = v := by
  have hw : w &&& r.mask = r.pattern := by simpa [OpRow.matches] using h
  rw [← hrow.2, ← hw, field_and, hrow.1, BitVec.and_allOnes]

theorem rows_fix_op : ∀ r ∈ opTable, field r.mask 0 4 = BitVec.allOnes 4 ∧ field r.pattern 0 4 = r.op.code := by
  decide

theorem row_eq_of_code : ∀ r ∈ opTable, ∀ q ∈ opTable, r.op.code = q.op.code → r = q := by decide

theorem fieldOp_of_matches {r : OpRow} {w : Word} (hr : r ∈ opTable) (h : r.matches w = true) :
    fieldOp w = r.op.code :=
  field_of_matches h (rows_fix_op r hr)

/-- Settles O4: both rows fix OP, and no two rows fix it at the same value. -/
theorem tableRowsDoNotOverlap : Obligations.TableRowsDoNotOverlap := by
  intro w r hr q hq hrw hqw
  exact row_eq_of_code r hr q hq ((fieldOp_of_matches hr hrw).symm.trans (fieldOp_of_matches hq hqw))

/-- The selected row is one of the table's that match. -/
theorem matches_of_selectRow {w : Word} {op : Opcode} (h : selectRow w = some op) :
    ∃ r ∈ opTable, r.op = op ∧ r.matches w = true := by
  obtain ⟨r, hfind, hop⟩ := Option.map_eq_some_iff.mp h
  exact ⟨r, List.mem_of_find?_eq_some hfind, hop, by simpa using List.find?_some hfind⟩

/-- The table selects the row that matches: some row is found, and no other row matches. -/
theorem selectRow_of_matches {r : OpRow} {w : Word} (hr : r ∈ opTable) (h : r.matches w = true) :
    selectRow w = some r.op := by
  cases hrow : selectRow w with
  | none => exact absurd h (List.find?_eq_none.mp (Option.map_eq_none_iff.mp hrow) r hr)
  | some op =>
    obtain ⟨q, hq, rfl, hqmatch⟩ := matches_of_selectRow hrow
    rw [tableRowsDoNotOverlap w q hq r hr hqmatch h]

/-- Every command's word matches the row of its opcode. -/
theorem encodeRow (i : Instr) : EncodeRow.Statement i := by
  cases i with
  | init o k s p => exact EncodeRow.init o k s p
  | initParams ln => exact EncodeRow.initParams ln
  | update => exact EncodeRow.update
  | final o => exact EncodeRow.final o
  | hash o k s p => exact EncodeRow.hash o k s p
  | hashLong => exact EncodeRow.hashLong

theorem selectRow_encode (i : Instr) : selectRow (encode i) = some (opcodeOf i) := by
  obtain ⟨r, hr, hop, hmatch⟩ := encodeRow i
  rw [selectRow_of_matches hr hmatch, hop]

/-! ### A row in terms of the fields (R59, R61) -/

/-- The fields, as lowest bit and width, that the commands of a row do not use (R59, R61 item 3). -/
def unusedFields : Opcode → List (Nat × Nat)
  | .init | .hash => [(28, 1)]
  | .initParams => [(4, 7), (11, 7), (18, 5), (23, 5)]
  | .update | .hashLong => [(4, 7), (11, 7), (18, 5), (23, 5), (28, 1)]
  | .final => [(11, 7), (18, 5), (23, 5), (28, 1)]

/-- The fields that are 0 in every word of a row: RSV, RSVH and the unused ones. -/
def zeroFields (op : Opcode) : List (Nat × Nat) := (29, 3) :: (32, 32) :: unusedFields op

/-- The word is on the row of `op`, read off its fields. `selectRow_eq_some_iff` ties it to the match and mask table. -/
def OnRow (w : Word) (op : Opcode) : Prop := fieldOp w = op.code ∧ ∀ f ∈ zeroFields op, field w f.1 f.2 = 0

/-- The command that the row of `op` reads from a word. -/
def readCommand (w : Word) : Opcode → Instr
  | .init => .init (fieldOutlen w) (fieldKeylen w) (fieldSaltlen w) (fieldPerslen w)
  | .initParams => .initParams (fieldLn w)
  | .update => .update
  | .final => .final (fieldOutlen w)
  | .hash => .hash (fieldOutlen w) (fieldKeylen w) (fieldSaltlen w) (fieldPerslen w)
  | .hashLong => .hashLong

@[simp] theorem opcodeOf_readCommand (w : Word) (op : Opcode) : opcodeOf (readCommand w op) = op := by
  cases op <;> rfl

theorem readCommand_encode (i : Instr) : readCommand (encode i) (opcodeOf i) = i := by
  cases i <;> simp [encode, opcodeOf, readCommand]

/-- On its row, a word is the word of the command the row reads: no bit is dropped. -/
theorem encode_readCommand {w : Word} {op : Opcode} (h : OnRow w op) : encode (readCommand w op) = w := by
  obtain ⟨hcode, hzero⟩ := h
  have hw := encodeFields_fields (w := w) (hzero (29, 3) (by simp [zeroFields])) (hzero (32, 32) (by simp [zeroFields]))
  rw [hcode] at hw
  cases op <;>
  · simp only [zeroFields, unusedFields, List.forall_mem_cons, field_ln_eq_zero] at hzero
    simpa [encode, readCommand, fieldOutlen, fieldKeylen, fieldSaltlen, fieldPerslen, hzero] using hw

theorem rows_fix_zeroFields : ∀ r ∈ opTable, ∀ f ∈ zeroFields r.op,
    field r.mask f.1 f.2 = BitVec.allOnes f.2 ∧ field r.pattern f.1 f.2 = 0 := by decide

/-- The table's rows in terms of the fields. -/
theorem selectRow_eq_some_iff (w : Word) (op : Opcode) : selectRow w = some op ↔ OnRow w op := by
  constructor
  · intro h
    obtain ⟨r, hr, rfl, hmatch⟩ := matches_of_selectRow h
    exact ⟨fieldOp_of_matches hr hmatch, fun f hf => field_of_matches hmatch (rows_fix_zeroFields r hr f hf)⟩
  · intro h
    rw [← encode_readCommand h, selectRow_encode, opcodeOf_readCommand]

theorem guardLengths_eq_ok (s p : BitVec 5) (i j : Instr) :
    guardLengths s p i = .ok j ↔ (saltlenLegal s && perslenLegal p) = true ∧ i = j := by
  cases hs : saltlenLegal s <;> cases hp : perslenLegal p <;> simp [guardLengths, hs, hp]

/-- Once the row is known, the decoder answers with the command the row reads, if it is well-formed. -/
theorem decodeCommand_of_selectRow {w : Word} {op : Opcode} (h : selectRow w = some op) (i : Instr) :
    decodeCommand w = .ok i ↔ (readCommand w op).wellFormed = true ∧ readCommand w op = i := by
  cases op <;> simp [decodeCommand, h, readCommand, Instr.wellFormed, guardLengths_eq_ok]

/-- What the decoder accepts: the well-formed command that the word's row reads. -/
theorem decodeCommand_eq_ok (w : Word) (i : Instr) :
    decodeCommand w = .ok i ↔ ∃ op, OnRow w op ∧ i.wellFormed = true ∧ readCommand w op = i := by
  constructor
  · intro h
    cases hrow : selectRow w with
    | none => simp [decodeCommand, hrow] at h
    | some op =>
      obtain ⟨hwf, rfl⟩ := (decodeCommand_of_selectRow hrow i).mp h
      exact ⟨op, (selectRow_eq_some_iff w op).mp hrow, hwf, rfl⟩
  · rintro ⟨op, hrow, hwf, rfl⟩
    exact (decodeCommand_of_selectRow ((selectRow_eq_some_iff w op).mpr hrow) _).mpr ⟨hwf, rfl⟩

/-- Settles O1: the table selects the command's own row, and that row reads the command's fields back. -/
theorem decodeOfEncode : Obligations.DecodeOfEncode := by
  intro i hi
  exact (decodeCommand_eq_ok _ _).mpr
    ⟨opcodeOf i, (selectRow_eq_some_iff _ _).mp (selectRow_encode i), hi, readCommand_encode i⟩

/-- Settles O2: a word that decodes is on a row, and on its row it is the word of the command read from it. -/
theorem encodeOfDecode : Obligations.EncodeOfDecode := by
  intro w i h
  obtain ⟨op, hrow, hwf, rfl⟩ := (decodeCommand_eq_ok w i).mp h
  exact ⟨encode_readCommand hrow, hwf⟩

/-- Settles O5: eight of the words are encoded commands, and the decoder names the other two. -/
theorem specWordsDecode : Obligations.SpecWordsDecode :=
  ⟨decodeOfEncode (.init 64 0 0 0) rfl, decodeOfEncode (.init 64 64 0 0) rfl, decodeOfEncode (.init 32 0 16 16) rfl,
    decodeOfEncode (.initParams true) rfl, decodeOfEncode .update rfl, decodeOfEncode (.final 64) rfl,
    decodeOfEncode (.hash 32 0 0 0) rfl, decodeOfEncode .hashLong rfl, rfl, rfl⟩

/-! ### The illegal words (R61) -/

theorem row_of_op_range : ∀ c : BitVec 4, c.toNat ≠ 0 → c.toNat < 7 → ∃ r ∈ opTable, r.op.code = c := by
  decide

theorem extractLsb'_eq_field (w : Word) (lo len : Nat) : w.extractLsb' lo len = field w lo len := rfl

theorem toNat_field_eq_zero (w : Word) (lo len : Nat) : (field w lo len).toNat = 0 ↔ field w lo len = 0 := by
  rw [BitVec.toNat_eq]
  rfl

/-- For a word with the opcode of a row, R61 leaves exactly the words of the row whose SALTLEN and PERSLEN are
legal. -/
theorem not_illegalWord_of_code {w : Word} {op : Opcode} (h : fieldOp w = op.code) :
    ¬ IllegalWord w ↔ OnRow w op ∧ (readCommand w op).wellFormed = true := by
  have hcode : field w 0 4 = op.code := h
  simp only [IllegalWord, extractLsb'_eq_field, hcode, toNat_field_eq_zero, OnRow, h, zeroFields, ne_eq]
  cases op <;>
    simp [unusedFields, Opcode.code, readCommand, Instr.wellFormed, saltlenLegal, perslenLegal, fieldSaltlen,
      fieldPerslen, and_assoc]

/-- The words of R61 are the ones the decoder refuses. -/
theorem not_illegalWord_iff (w : Word) : ¬ IllegalWord w ↔ ∃ i, decodeCommand w = .ok i := by
  constructor
  · intro h
    have hrange : ¬ ((fieldOp w).toNat = 0 ∨ 7 ≤ (fieldOp w).toNat) := fun hop => h (.inr (.inl hop))
    obtain ⟨r, -, hcode⟩ := row_of_op_range (fieldOp w) (by omega) (by omega)
    obtain ⟨hrow, hwf⟩ := (not_illegalWord_of_code hcode.symm).mp h
    exact ⟨_, (decodeCommand_eq_ok w _).mpr ⟨r.op, hrow, hwf, rfl⟩⟩
  · rintro ⟨i, hi⟩
    obtain ⟨op, hrow, hwf, rfl⟩ := (decodeCommand_eq_ok w i).mp hi
    exact (not_illegalWord_of_code hrow.1).mpr ⟨hrow, hwf⟩

theorem decodeCommand_of_illegal {w : Word} (h : IllegalWord w) : ∃ e, decodeCommand w = .error e := by
  cases hdecode : decodeCommand w with
  | error e => exact ⟨e, rfl⟩
  | ok i => exact absurd h ((not_illegalWord_iff w).mpr ⟨i, hdecode⟩)

theorem writeReg_cmd_of_idle {s : State} (hbusy : s.busy = false) (w : Word) : s.writeReg .cmd w = s.accept w := by
  simp [State.writeReg, hbusy]

/-- An illegal word in the latch of a BUSY engine completes with IllegalCommand (R61, R96). -/
theorem engineMove_of_illegal {s : State} {e : DecodeError} (hreset : s.resetDone = true) (hbusy : s.busy = true)
    (h : decodeCommand s.latch.cmd = .error e) : s.engineMove = .next (s.raise .illegalCommand) := by
  simp [State.engineMove, State.completeCommand, hreset, hbusy, h]

/-- Settles O3: acceptance puts the word in the latch, where the engine finds that it does not decode; and the words
outside R61 are those that decode. -/
theorem illegalWordsComplete : Obligations.IllegalWordsComplete := by
  refine ⟨fun s w hreset hbusy hillegal => ?_, fun w h => (not_illegalWord_iff w).mp h⟩
  obtain ⟨e, herror⟩ := decodeCommand_of_illegal hillegal
  rw [writeReg_cmd_of_idle hbusy]
  exact engineMove_of_illegal (s := s.accept w) hreset rfl herror

end Sys2Proof.Proofs
end

section
/-!
PROOFS. The parameter block codec (spec/40_param_codec.md rules R65 to R70): bytes and words, the fields of a block at
their offsets, the words the block seeds, and the errors of the encode and decode paths.
-/

namespace Sys2Proof.Proofs

open Sys2Proof.Machine Sys2Proof.Safety

/-! ### Bytes and words (R7) -/

/-- One step of the sum of R7 as a concatenation: the first byte is the low byte, and the other bytes stand above it. -/
theorem ofNat_leNat_cons {w : Nat} (b : Byte) (bs : List Byte) :
    BitVec.ofNat (w + 8) (leNat (b :: bs)) = BitVec.ofNat w (leNat bs) ++ b := by
  have hb : b.toNat < 2 ^ 8 := b.isLt
  refine BitVec.eq_of_toNat_eq ?_
  have hrest : (b.toNat + 256 * leNat bs) / 2 ^ 8 = leNat bs := by omega
  rw [BitVec.toNat_append, ← Nat.shiftLeft_add_eq_or_of_lt hb, Nat.shiftLeft_eq, BitVec.toNat_ofNat,
    BitVec.toNat_ofNat, leNat, Nat.add_comm w 8, Nat.pow_add, Nat.mod_mul, hrest]
  omega

theorem ofNat_leNat_singleton (b : Byte) : BitVec.ofNat 8 (leNat [b]) = b := by
  simp [leNat]

theorem ofNat_leNat_bytes32 (x : BitVec 32) : BitVec.ofNat 32 (leNat (bytes32 x)) = x := by
  have hlt : x.toNat < 256 ^ 4 := x.isLt
  rw [bytes32, leNat_byteOf, Nat.mod_eq_of_lt hlt, BitVec.ofNat_toNat, BitVec.setWidth_eq]

/-- A string as long as a word is read back from the word its number makes. -/
theorem map_byteOf_ofNat_leNat {w n : Nat} {bs : List Byte} (hn : bs.length = n) (hw : 2 ^ w = 256 ^ n) :
    (List.range n).map (byteOf (BitVec.ofNat w (leNat bs))) = bs := by
  have hlt := leNat_lt bs
  refine leNat_inj _ _ (by simp [hn]) ?_
  rw [leNat_byteOf, BitVec.toNat_ofNat, hw, Nat.mod_mod, Nat.mod_eq_of_lt (hn ▸ hlt)]

theorem bytes32_le32 {bs : List Byte} {o : Nat} (h : o + 4 ≤ bs.length) : bytes32 (le32 bs o) = (bs.drop o).take 4 :=
  map_byteOf_ofNat_leNat (by simp; omega) (by norm_num)

theorem bytes64_le64 {bs : List Byte} {o : Nat} (h : o + 8 ≤ bs.length) : bytes64 (le64 bs o) = (bs.drop o).take 8 :=
  map_byteOf_ofNat_leNat (by simp; omega) (by norm_num)

theorem le64_drop (bs : List Byte) (n o : Nat) : le64 (bs.drop n) o = le64 bs (n + o) := by
  rw [le64, List.drop_drop, le64]

/-- `LE64` inside the first of two strings does not see the second. -/
theorem le64_append_of_le {as : List Byte} (bs : List Byte) {o : Nat} (h : o + 8 ≤ as.length) :
    le64 (as ++ bs) o = le64 as o := by
  rw [le64, le64, List.drop_append_of_le_length (by omega), List.take_append_of_le_length (by simp; omega)]

/-- A byte as a slice of its string, like the longer fields in `bytes32_le32` and `bytes64_le64`. -/
theorem singleton_getD {bs : List Byte} {o : Nat} (h : o < bs.length) : [bs.getD o 0] = (bs.drop o).take 1 := by
  rw [List.drop_eq_getElem_cons h, List.getD_eq_getElem _ _ h]
  rfl

/-! ### Padded strings (R7) -/

theorem zeros_getElem {n i : Nat} (h : i < (zeros n).length) : (zeros n)[i] = 0 := by
  simp [zeros]

/-- `pad` cuts a string that is too long and fills one that is too short. -/
theorem toList_padTo (n : Nat) (bs : List Byte) : (padTo n bs).toList = bs.take n ++ zeros (n - bs.length) := by
  refine List.ext_getElem (by simp; omega) fun i hi hi' => ?_
  have hin : i < n := by simpa using hi
  by_cases hbs : i < bs.length
  · simp [hin, hbs, List.getD]
  · simp [List.getElem_append, hin, hbs, List.getD, zeros_getElem]

theorem toList_padTo_of_le {n : Nat} {bs : List Byte} (h : n ≤ bs.length) : (padTo n bs).toList = bs.take n := by
  rw [toList_padTo, Nat.sub_eq_zero_of_le h]
  exact List.append_nil _

theorem padTo_toList_append {n : Nat} (v : Vector Byte n) (bs : List Byte) : padTo n (v.toList ++ bs) = v := by
  ext i hi
  simp [hi, List.getD, List.getElem?_append]

/-! ### The fields of a block at their offsets (R65) -/

section Offsets
variable (p : ParamBlock)

theorem toBytes_length : p.toBytes.length = 64 := by simp [ParamBlock.toBytes]

theorem toBytes_drop_leafLength : p.toBytes.drop 4 = bytes32 p.leafLength ++ p.toBytes.drop 8 := rfl

theorem toBytes_drop_nodeOffset : p.toBytes.drop 8 = bytes64 p.nodeOffset ++ p.toBytes.drop 16 := rfl

theorem toBytes_drop_reserved : p.toBytes.drop 18 = p.reserved.toList ++ (p.salt.toList ++ p.personal.toList) :=
  List.append_assoc _ _ _

theorem toBytes_drop_salt : p.toBytes.drop 32 = p.salt.toList ++ p.personal.toList := by
  rw [← List.drop_drop (i := 14) (j := 18), toBytes_drop_reserved, List.drop_left' (by simp)]

theorem toBytes_drop_personal : p.toBytes.drop 48 = p.personal.toList := by
  rw [← List.drop_drop (i := 16) (j := 32), toBytes_drop_salt, List.drop_left' (by simp)]

theorem le32_toBytes_leafLength : le32 p.toBytes 4 = p.leafLength := by
  rw [le32, toBytes_drop_leafLength, List.take_left' (bytes32_length _), ofNat_leNat_bytes32]

theorem le64_toBytes_nodeOffset : le64 p.toBytes 8 = p.nodeOffset := by
  rw [← le64_drop _ 8 0, toBytes_drop_nodeOffset, le64_append _ (bytes64_length _), le64_bytes64]

/-- Each field is read at the offset where `toBytes` puts it; the single bytes stand at fixed places of the list. -/
theorem ofBytes_toBytes : ParamBlock.ofBytes p.toBytes = p := by
  have hreserved : padTo 14 (p.toBytes.drop 18) = p.reserved := by rw [toBytes_drop_reserved, padTo_toList_append]
  have hsalt : padTo 16 (p.toBytes.drop 32) = p.salt := by rw [toBytes_drop_salt, padTo_toList_append]
  have hpersonal : padTo 16 (p.toBytes.drop 48) = p.personal := by
    rw [toBytes_drop_personal, ← List.append_nil p.personal.toList, padTo_toList_append]
  rw [ParamBlock.ofBytes, le32_toBytes_leafLength, le64_toBytes_nodeOffset, hreserved, hsalt, hpersonal]
  rfl

end Offsets

/-- The fields of a 64-byte string are adjacent slices of it, from the first byte to the last. -/
theorem toBytes_ofBytes {bs : List Byte} (h : bs.length = 64) : (ParamBlock.ofBytes bs).toBytes = bs := by
  have hslice (a n : Nat) : bs.take a ++ (bs.drop a).take n = bs.take (a + n) := List.take_add.symm
  simp only [ParamBlock.ofBytes, ParamBlock.toBytes]
  rw [bytes32_le32 (by omega), bytes64_le64 (by omega), toList_padTo_of_le (by simp; omega),
    toList_padTo_of_le (by simp; omega), toList_padTo_of_le (by simp; omega), singleton_getD (by omega),
    singleton_getD (by omega), singleton_getD (by omega), singleton_getD (by omega), singleton_getD (by omega),
    singleton_getD (by omega), List.drop_zero]
  simp only [hslice]
  exact List.take_of_length_le (by omega)

/-- Settles O12, by `ofBytes_toBytes` and `toBytes_ofBytes`. -/
theorem paramBlockRoundTrip : Obligations.ParamBlockRoundTrip :=
  ⟨fun p => ⟨toBytes_length p, ofBytes_toBytes p⟩, fun _ => toBytes_ofBytes⟩

/-! ### The sequential-mode block (R66) -/

/-- Settles O11: `pad` of R7 on the salt and the personalization, and the constant fields as bytes. -/
theorem sequentialParamBlock : Obligations.SequentialParamBlock := by
  intro o k salt pers _ _ _ hsalt hpers
  have hpad {bs : List Byte} (h : bs.length ≤ 16) : (padTo 16 bs).toList = bs ++ zeros (16 - bs.length) := by
    rw [toList_padTo, List.take_of_length_le h]
  have hleaf : bytes32 0 = zeros 4 := by decide
  have hnode : bytes64 0 = zeros 8 := by decide
  have hreserved : (padTo 14 []).toList = zeros 14 := toList_padTo 14 []
  simp only [encodeParams, ParamBlock.toBytes, hpad hsalt, hpad hpers, hleaf, hnode, hreserved]
  simp

/-! ### The seeded chaining state (R69, R70) -/

theorem seedChain_getElem (pb : List Byte) {i : Nat} (hi : i < 8) : (seedChain pb)[i] = iv[i] ^^^ le64 pb (8 * i) := by
  simp [seedChain]

/-- The reserved bytes that share word 2 with node depth and inner hash length (R70). -/
theorem take_six_reserved (p : ParamBlock) : p.reserved.toList.take 6 =
    [p.reserved[0], p.reserved[1], p.reserved[2], p.reserved[3], p.reserved[4], p.reserved[5]] := by
  simp [List.take_add_one]

/-- R70, word 0: digest length, key length, fanout and depth from the low byte up, leaf length above them. -/
theorem le64_toBytes_word0 (p : ParamBlock) : le64 p.toBytes 0 =
    (p.leafLength ++ p.depth ++ p.fanout ++ p.keyLength ++ p.digestLength : BitVec 64) := by
  have hbytes : (p.toBytes.drop 0).take 8 =
      p.digestLength :: p.keyLength :: p.fanout :: p.depth :: bytes32 p.leafLength := rfl
  rw [le64, hbytes, ofNat_leNat_cons (w := 56), ofNat_leNat_cons (w := 48), ofNat_leNat_cons (w := 40),
    ofNat_leNat_cons (w := 32), ofNat_leNat_bytes32]

/-- R70, word 2: node depth, inner hash length and the first six reserved bytes. -/
theorem le64_toBytes_word2 (p : ParamBlock) : le64 p.toBytes 16 =
    (p.reserved[5] ++ p.reserved[4] ++ p.reserved[3] ++ p.reserved[2] ++ p.reserved[1] ++
      p.reserved[0] ++ p.innerLength ++ p.nodeDepth : BitVec 64) := by
  have hbytes : (p.toBytes.drop 16).take 8 = p.nodeDepth :: p.innerLength :: (p.toBytes.drop 18).take 6 := rfl
  rw [le64, hbytes, toBytes_drop_reserved, List.take_append_of_le_length (by simp), take_six_reserved,
    ofNat_leNat_cons (w := 56), ofNat_leNat_cons (w := 48), ofNat_leNat_cons (w := 40), ofNat_leNat_cons (w := 32),
    ofNat_leNat_cons (w := 24), ofNat_leNat_cons (w := 16), ofNat_leNat_cons (w := 8), ofNat_leNat_singleton]

/-- Settles O13: a seeded word is the IV word xored with eight bytes of the block, read at the field's offset. -/
theorem seededWordsByField : Obligations.SeededWordsByField := by
  intro p
  have hreserved (o : Nat) (h : o + 8 ≤ 14) : le64 p.toBytes (18 + o) = le64 p.reserved.toList o := by
    rw [← le64_drop, toBytes_drop_reserved, le64_append_of_le _ (by simpa using h)]
  have hsalt (o : Nat) (h : o + 8 ≤ 16) : le64 p.toBytes (32 + o) = le64 p.salt.toList o := by
    rw [← le64_drop, toBytes_drop_salt, le64_append_of_le _ (by simpa using h)]
  have hpersonal (o : Nat) : le64 p.toBytes (48 + o) = le64 p.personal.toList o := by
    rw [← le64_drop, toBytes_drop_personal]
  have hword {i : Nat} {x : Word} (hi : i < 8) (h : le64 p.toBytes (8 * i) = x) :
      (seedChain p.toBytes)[i] = iv[i] ^^^ x := by
    rw [seedChain_getElem _ hi, h]
  exact ⟨hword _ (le64_toBytes_word0 p), hword _ (le64_toBytes_nodeOffset p), hword _ (le64_toBytes_word2 p),
    hword _ (hreserved 6 (by decide)), hword _ (hsalt 0 (by decide)), hword _ (hsalt 8 (by decide)),
    hword _ (hpersonal 0), hword _ (hpersonal 8)⟩

/-! ### The errors of INIT and HASH (R67) -/

/-- INIT and HASH have the same tests in the same order (R96). -/
theorem check_of_init_or_hash {s : State} {i : Instr} {o k : BitVec 7} {sl pl : BitVec 5}
    (hi : i = .init o k sl pl ∨ i = .hash o k sl pl) :
    s.check i = firstError [(badLengths sl pl, .illegalCommand), (badOutlen o, .invalidOutputLength),
      (badKeylen k, .invalidKeyLength), (s.rangeFault i, .busError)] := by
  rcases hi with rfl | rfl <;> rfl

theorem badLengths_of_gt {sl pl : BitVec 5} (h : 16 < sl.toNat ∨ 16 < pl.toNat) : badLengths sl pl = true := by
  rw [← Bool.not_eq_false, badLengths_eq_false]
  omega

theorem badOutlen_of_outside {o : BitVec 7} (h : o.toNat = 0 ∨ 64 < o.toNat) : badOutlen o = true := by
  rw [← Bool.not_eq_false, badOutlen_eq_false]
  omega

theorem badKeylen_of_gt {k : BitVec 7} (h : 64 < k.toNat) : badKeylen k = true := decide_eq_true h

/-! ### The checks of INIT_PARAMS (R68) -/

/-- The reserved bytes are the bytes 18 to 31 of the block (R65). -/
theorem reserved_eq_zeros_iff (pb : Vector Byte 64) :
    (pb.toList.drop 18).take 14 = zeros 14 ↔ ∀ j : Fin 14, pb[18 + j.val] = 0 := by
  rw [List.ext_getElem_iff]
  simp [zeros_getElem, Fin.forall_iff]

/-- `PBcheck` on the latched block, its three tests by the bytes they look at. -/
theorem check_initParams (s : State) (ln : Bool) :
    s.check (.initParams ln) =
      if s.latch.pb[0].toNat = 0 ∨ 64 < s.latch.pb[0].toNat then .invalidDigestLength
      else if 64 < s.latch.pb[1].toNat then .invalidKeyLength
      else if ∀ j : Fin 14, s.latch.pb[18 + j.val] = 0 then .ok
      else .invalidParameter := by
  have hkey : s.latch.pb.toList.getD 1 0 = s.latch.pb[1] := by simp [List.getD]
  have hzero : s.latch.pb[0] = 0 ↔ s.latch.pb[0].toNat = 0 := BitVec.toNat_eq.trans (by rfl)
  simp only [State.check, State.checkInitParams, checkParams, getD_zero_toList, hkey, hzero, ne_eq,
    reserved_eq_zeros_iff, ite_not]

theorem initParams_invalidDigestLength {s : State} (ln : Bool)
    (h : s.latch.pb[0].toNat = 0 ∨ 64 < s.latch.pb[0].toNat) :
    exec (.initParams ln) s = .next (failedWith s .invalidDigestLength) :=
  exec_of_check_error (by rw [check_initParams, if_pos h]) (by decide)

/-- Settles O20: the tests that INIT and HASH share are made in the order of R67. -/
theorem encodePathErrors : Obligations.EncodePathErrors := by
  refine ⟨fun s o k sl pl i hi => ?_, fun s ln => initParams_invalidDigestLength ln⟩
  have hcheck := check_of_init_or_hash (s := s) hi
  have hlegal (hsl : sl.toNat ≤ 16) (hpl : pl.toNat ≤ 16) := (badLengths_eq_false sl pl).mpr ⟨hsl, hpl⟩
  refine ⟨fun hlen => ?_, fun hsl hpl hout => ?_, fun hsl hpl ho ho' hkey => ?_⟩ <;>
    refine exec_of_check_error ?_ (by decide)
  · simp [hcheck, badLengths_of_gt hlen]
  · simp [hcheck, hlegal hsl hpl, badOutlen_of_outside hout]
  · simp [hcheck, hlegal hsl hpl, (badOutlen_eq_false o).mpr ⟨ho, ho'⟩, badKeylen_of_gt hkey]

/-- Settles O21: each clause is one branch of `check_initParams`; on a legal block the session is that of `ctxInit`. -/
theorem paramBlockErrors : Obligations.ParamBlockErrors := by
  intro s ln
  have hrange (hpos : 1 ≤ s.latch.pb[0].toNat) (hle : s.latch.pb[0].toNat ≤ 64) :
      ¬ (s.latch.pb[0].toNat = 0 ∨ 64 < s.latch.pb[0].toNat) := by omega
  refine ⟨initParams_invalidDigestLength ln, fun hpos hle hkey => ?_, fun hpos hle hkey hbad => ?_,
    fun hpos hle hkey hzero => ?_⟩
  · refine exec_of_check_error ?_ (by decide)
    rw [check_initParams, if_neg (hrange hpos hle), if_pos hkey]
  · refine exec_of_check_error ?_ (by decide)
    rw [check_initParams, if_neg (hrange hpos hle), if_neg (by omega), if_neg (not_forall.mpr hbad)]
  · have hok : s.check (.initParams ln) = .ok := by
      rw [check_initParams, if_neg (hrange hpos hle), if_neg (by omega), if_pos hzero]
    refine ⟨_, by rw [exec_eq, hok, conclude_ok], rfl, ?_, rfl, fun i => ?_⟩
    · exact congrArg BitVec.toNat (getD_zero_toList s.latch.pb)
    · exact seedChain_getElem _ i.isLt

end Sys2Proof.Proofs
end

section
/-!
PROOFS. The compression function (spec/41_compression.md): the working vector before the first round (R76) and the
output fold (R78).
-/

namespace Sys2Proof.Proofs

open Sys2Proof.Machine Sys2Proof.Safety

/-! ### The counter's two words (R29) -/

theorem counterLow_eq_ofNat_mod (t : Counter) : counterLow t = BitVec.ofNat 64 (t.toNat % 2 ^ 64) := by
  apply BitVec.eq_of_toNat_eq
  simp [counterLow]

theorem counterHigh_eq_ofNat_div (t : Counter) : counterHigh t = BitVec.ofNat 64 (t.toNat / 2 ^ 64) := by
  apply BitVec.eq_of_toNat_eq
  simp [counterHigh, Nat.shiftRight_eq_div_pow]

/-! ### The working vector (R76) -/

section WorkingVector

variable (h : Vector Word 8) (t : Counter) (f0 f1 : Word)

theorem workingVector_chain (i : Fin 8) : (workingVector h t f0 f1)[i.val] = h[i] := by
  fin_cases i <;> rfl

theorem workingVector_iv (i : Fin 4) : (workingVector h t f0 f1)[i.val + 8] = iv[i.val] := by
  fin_cases i <;> rfl

end WorkingVector

/-- Settles O8: words 0 to 11 are copied, and words 12 and 13 take the counter's halves as numbers. -/
theorem workingVectorSetUp : Obligations.WorkingVectorSetUp := by
  intro h t f0 f1
  rw [← counterLow_eq_ofNat_mod, ← counterHigh_eq_ofNat_div]
  exact ⟨workingVector_chain h t f0 f1, workingVector_iv h t f0 f1, rfl, rfl, rfl, rfl⟩

/-! ### The output fold (R78) -/

theorem foldOutput_getElem (h : Vector Word 8) (v : Vector Word 16) (i : Fin 8) :
    (foldOutput h v)[i] = h[i] ^^^ v[i.val] ^^^ v[i.val + 8] :=
  Vector.getElem_ofFn i.isLt

/-- Settles O9: the compression is the fold of the chaining state with the working vector after the rounds. -/
theorem outputFold : Obligations.OutputFold :=
  fun h _ _ _ _ => foldOutput_getElem h _

end Sys2Proof.Proofs
end

section
/-!
PROOFS. The streaming commands (spec/42_streaming.md): the counter advance (R81), where INIT, INIT_PARAMS, UPDATE and
FINAL complete (R83 to R86), the phases (R80), and streaming as a chain of blocks (R87).
-/

namespace Sys2Proof.Proofs

open Sys2Proof.Machine Sys2Proof.Safety

/-! ### The counter advance (R81) -/

theorem counterLow_toNat (t : Counter) : (counterLow t).toNat = t.toNat % 2 ^ 64 := by
  simp [counterLow]

theorem counterHigh_toNat (t : Counter) : (counterHigh t).toNat = t.toNat / 2 ^ 64 := by
  have ht := t.isLt
  rw [counterHigh_eq_ofNat_div, BitVec.toNat_ofNat]
  omega

/-- R81 on the 128-bit value; it holds for every `n`. -/
theorem advance_toNat (t : Counter) (n : Nat) : (advance t n).toNat = (t.toNat + n) % 2 ^ 128 := by
  rw [advance, BitVec.toNat_add, BitVec.toNat_ofNat, Nat.add_mod_mod]

/-- Settles O10: both words are read off the 128-bit value. The low word carries exactly when it wraps, and since `n` is
below 2^64 it has wrapped exactly when it ends below `n`. -/
theorem counterAdvance : Obligations.CounterAdvance := by
  intro t n hn
  have ht := t.isLt
  refine ⟨?_, ?_, advance_toNat t n⟩
  · apply BitVec.eq_of_toNat_eq
    rw [BitVec.toNat_add, BitVec.toNat_ofNat, counterLow_toNat, counterLow_toNat, advance_toNat]
    omega
  · apply BitVec.eq_of_toNat_eq
    rw [BitVec.toNat_add, counterHigh_toNat, counterHigh_toNat, counterLow_toNat, advance_toNat]
    split
    next hcarry =>
      have hone : (1 : Word).toNat = 1 := rfl
      omega
    next hcarry =>
      have hzero : (0 : Word).toNat = 0 := rfl
      omega

/-! ### Where the streaming commands complete (R83 to R86) -/

theorem exec_of_check_ok {i : Instr} {s : State} (h : s.check i = .ok) :
    exec i s = .next { s with ctx := effectCtx i s, mem := effectMem i s, err := .ok, busy := false } := by
  rw [exec_eq, h]
  rfl

theorem check_init_eq_ok {s : State} {o k : BitVec 7} {sl pl : BitVec 5}
    (hlengths : sl.toNat ≤ 16 ∧ pl.toNat ≤ 16 ∧ 1 ≤ o.toNat ∧ o.toNat ≤ 64 ∧ k.toNat ≤ 64)
    (hkey : s.platform.admits ⟨s.latch.key.toNat, k.toNat⟩ = true)
    (hsalt : s.platform.admits ⟨s.latch.salt.toNat, sl.toNat⟩ = true)
    (hpers : s.platform.admits ⟨s.latch.pers.toNat, pl.toNat⟩ = true) : s.check (.init o k sl pl) = .ok := by
  obtain ⟨hlen, hout, hk⟩ := lengthTests_pass hlengths
  refine (checkInit_ok s o k sl pl).mpr ⟨hlen, hout, hk, (rangeFault_eq_false s _).mpr ?_⟩
  simp [State.ranges, State.readRanges, State.writeRanges, hkey, hsalt, hpers]

theorem check_update_eq_ok {s : State} (hopen : Open s.ctx.phase)
    (hsrc : s.platform.admits ⟨s.latch.src.toNat, s.latch.srcLen.toNat⟩ = true) : s.check .update = .ok := by
  refine (checkUpdate_ok s).mpr ⟨(closed_eq_false _).mpr hopen, (rangeFault_eq_false s _).mpr ?_⟩
  simp [State.ranges, State.readRanges, State.writeRanges, hsrc]

theorem check_final_eq_ok {s : State} {o : BitVec 7} (hopen : Open s.ctx.phase) (hout : o.toNat = s.ctx.outlen)
    (hdst : s.platform.admits ⟨s.latch.dst.toNat, s.ctx.outlen⟩ = true) : s.check (.final o) = .ok := by
  refine (checkFinal_ok s o).mpr ⟨(closed_eq_false _).mpr hopen, hout, (rangeFault_eq_false s _).mpr ?_⟩
  simp [State.ranges, State.readRanges, State.writeRanges, hdst]

/-- The session INIT starts, field by field (R82, R83). -/
theorem startSession_eq {o : Nat} (key salt pers : List Byte) (ho : o < 256) :
    startSession o key salt pers =
      { h := seedChain (encodeParams o key.length salt pers)
        t := 0
        f0 := 0
        f1 := 0
        buf := if key.length = 0 then Vector.replicate 128 0 else padTo 128 key
        buflen := if key.length = 0 then 0 else 128
        outlen := o
        lastNode := false
        phase := .initialized } := by
  have hout : ((encodeParams o key.length salt pers).getD 0 0).toNat = o := by
    rw [encodeParams_head, BitVec.toNat_ofNat, Nat.mod_eq_of_lt ho]
  cases key with
  | nil => simp only [startSession, Session.loadKey_nil, ctxInit, hout]; rfl
  | cons b bs => simp only [startSession, Session.loadKey, ctxInit, hout]; rfl

/-- Settles O14: the check passes, and the effect is the session of `startSession_eq`. -/
theorem initCompletes : Obligations.InitCompletes := by
  intro s o k sl pl ho ho' hk hsl hpl hkey hsalt hpers
  rw [exec_of_check_ok (check_init_eq_ok ⟨hsl, hpl, ho, ho', hk⟩ hkey hsalt hpers)]
  simp only [effectCtx, effectMem, startSession_eq _ _ _ (outlenField_lt o), State.keyBytes, State.saltBytes,
    State.persBytes, Memory.readBytes_length]

/-- Settles O15: a legal block passes `PBcheck`, and the session is that of `CtxInit`. -/
theorem initParamsCompletes : Obligations.InitParamsCompletes := by
  intro s ln hpos hle hkey hreserved
  have hok : s.check (.initParams ln) = .ok := by
    rw [check_initParams, if_neg (by omega), if_neg (by omega), if_pos hreserved]
  rw [exec_of_check_ok hok]
  simp only [effectCtx, effectMem, ctxInit, getD_zero_toList]
  rfl

/-- Settles O16: the check passes, and the effect is by definition the fold of the loop's turn. -/
theorem updateCompletes : Obligations.UpdateCompletes := by
  intro s hopen hsrc
  rw [exec_of_check_ok (check_update_eq_ok hopen hsrc)]
  rfl

/-- Settles O17: the check passes; the session is that of `Finish`, and its digest is what is stored. -/
theorem finalCompletes : Obligations.FinalCompletes := by
  intro s o hopen hout hdst
  refine ⟨s.ctx.finish.enter .finalized, rfl, rfl, rfl, fun i => ?_, rfl, rfl, rfl, rfl, rfl, ?_⟩
  · exact Vector.getElem_ofFn i.isLt
  · exact exec_of_check_ok (check_final_eq_ok hopen hout hdst)

/-! ### The phases (R80) -/

/-- A command ends with the error of its check, success being none (R94). -/
theorem err_eq_check {i : Instr} {s t : State} (h : exec i s = .next t) : t.err = s.check i := by
  rcases exec_next h with ⟨hcheck, rfl⟩ | ⟨-, rfl⟩
  · exact hcheck.symm
  · rfl

theorem closed_of_not_open {p : Phase} (h : ¬ Open p) : p.closed = true := by
  rw [← Bool.not_eq_false, closed_eq_false]
  exact h

theorem not_open_iff (p : Phase) : ¬ Open p ↔ p = .uninitialized ∨ p = .finalized := by
  cases p <;> decide

/-- Settles O22: the phase is the first test of UPDATE and FINAL, and the session's length FINAL's second. -/
theorem sequenceErrors : Obligations.SequenceErrors := by
  refine fun s o => ⟨fun hphase => ?_, fun hopen hout => ?_⟩
  · have hclosed := closed_of_not_open hphase
    exact ⟨exec_of_check_error (check_eq_invalidState (.inl rfl) hclosed) (by decide),
      exec_of_check_error (check_eq_invalidState (.inr ⟨o, rfl⟩) hclosed) (by decide)⟩
  · refine exec_of_check_error ?_ (by decide)
    simp [State.check, State.checkFinal, (closed_eq_false _).mpr hopen, hout]

/-- A list of tests raises none but the errors of those that apply. -/
theorem firstError_ne {l : List (Bool × ErrCode)} {e : ErrCode} (he : e ≠ .ok)
    (hl : ∀ x ∈ l, x.1 = true → x.2 ≠ e) : firstError l ≠ e := by
  induction l with
  | nil => exact he.symm
  | cons x l ih =>
    rw [firstError_cons]
    split
    next happlies => exact hl x (by simp) happlies
    next => exact ih fun y hy => hl y (by simp [hy])

/-- UPDATE and FINAL raise InvalidState by their first test only, and no other command names it. -/
theorem check_eq_invalidState_iff (i : Instr) (s : State) :
    s.check i = .invalidState ↔ (i = .update ∨ ∃ o, i = .final o) ∧ ¬ Open s.ctx.phase := by
  refine ⟨fun h => ?_, fun ⟨hi, hphase⟩ => check_eq_invalidState hi (closed_of_not_open hphase)⟩
  cases i with
  | init o k sl pl => exact absurd h (firstError_ne (by decide) (by simp))
  | initParams ln =>
    rw [check_initParams] at h
    split_ifs at h
  | update =>
    refine ⟨.inl rfl, fun hopen => firstError_ne (by decide) ?_ h⟩
    simp [(closed_eq_false _).mpr hopen]
  | final o =>
    refine ⟨.inr ⟨o, rfl⟩, fun hopen => firstError_ne (by decide) ?_ h⟩
    simp [(closed_eq_false _).mpr hopen]
  | hash o k sl pl => exact absurd h (firstError_ne (by decide) (by simp))
  | hashLong => exact absurd h (firstError_ne (by decide) (by simp))

/-- Settles O26: the phase is that of the command's effect or is kept, and the error is that of the check. -/
theorem phaseTransitions : Obligations.PhaseTransitions := by
  intro i s t h
  refine ⟨fun herr => ?_, fun hok => ?_, ?_⟩
  · obtain ⟨hfailed, -⟩ := (allOrNothing i s t h).1 herr
    rw [hfailed]
  · obtain ⟨-, hctx, -⟩ := exec_success h hok
    rw [hctx]
    cases i with
    | init o k sl pl => exact startSession_phase _ _ _ _
    | _ => rfl
  · rw [err_eq_check h, check_eq_invalidState_iff, not_open_iff]

/-! ### Frames of the streaming commands -/

/-- A store at LDST leaves every byte outside a range that holds the stored string. -/
theorem read_storeOutput_outside (s : State) {bytes : List Byte} {n a : Nat} (hlen : bytes.length ≤ n)
    (ha : a < s.latch.dst.toNat ∨ s.latch.dst.toNat + n ≤ a) : (s.storeOutput bytes).read a = s.mem.read a :=
  Memory.read_writeBytes_other _ _ _ _ (by omega)

/-- Settles O39: a failed command stores nothing, and a successful one stores a string no longer than its range. -/
theorem commandsKeepOtherMemory : Obligations.CommandsKeepOtherMemory := by
  intro i s t h
  rcases exec_next h with ⟨-, rfl⟩ | ⟨-, rfl⟩
  · cases i with
    | init o k sl pl => exact fun _ => rfl
    | initParams ln => exact fun _ => rfl
    | update => exact fun _ => rfl
    | final o => exact fun a ha => read_storeOutput_outside s (List.length_take_le _ _) ha
    | hash o k sl pl => exact fun a ha => read_storeOutput_outside s (List.length_take_le _ _) ha
    | hashLong => exact fun a ha => read_storeOutput_outside s (hashLongOutput_length _ _).le ha
  · cases i with
    | final o => exact fun _ _ => rfl
    | hash o k sl pl => exact fun _ _ => rfl
    | hashLong => exact fun _ _ => rfl
    | _ => exact fun _ => rfl

/-- The final compression keeps the valid bytes of the buffer (R86). -/
theorem paddedBuf_valid (c : Session) (i : Fin 128) (h : i.val < c.buflen) : c.paddedBuf[i] = c.buf[i] :=
  (Vector.getElem_ofFn i.isLt).trans (if_pos h)

/-- Settles O40: a successful command leaves its effect, and `absorb` and `finish` keep these fields. -/
theorem streamingKeepsSession : Obligations.StreamingKeepsSession := by
  refine ⟨fun s t h hok => ?_, fun s t o h hok => ?_⟩
  · obtain ⟨-, hctx, -⟩ := exec_success h hok
    rw [hctx]
    exact ⟨absorb_f0 _ _, absorb_f1 _ _, absorb_outlen _ _, absorb_lastNode _ _⟩
  · obtain ⟨-, hctx, -⟩ := exec_success h hok
    rw [hctx]
    exact ⟨rfl, rfl, rfl, paddedBuf_valid s.ctx⟩

/-! ### INIT_PARAMS on the sequential-mode block (R84) -/

/-- The block of R66 passes `PBcheck`. -/
theorem checkParams_encodeParams {o k : Nat} (salt pers : List Byte) (hpos : 1 ≤ o) (hle : o ≤ 64) (hk : k ≤ 64) :
    checkParams (encodeParams o k salt pers) = .ok := by
  have hout : (BitVec.ofNat 8 o).toNat = o := by rw [BitVec.toNat_ofNat]; omega
  have hkey : ((encodeParams o k salt pers).getD 1 0).toNat = k := by
    change (BitVec.ofNat 8 k).toNat = k
    rw [BitVec.toNat_ofNat]
    omega
  have hne : BitVec.ofNat 8 o ≠ 0 := fun h => by
    have hzero : o = 0 := hout.symm.trans (congrArg BitVec.toNat h)
    omega
  have hreserved : ((encodeParams o k salt pers).drop 18).take 14 = zeros 14 := by
    rw [encodeParams, toBytes_drop_reserved, List.take_left' (by simp), toList_padTo]
    rfl
  rw [checkParams, encodeParams_head, hout, hkey, hreserved, if_neg (not_or.mpr ⟨hne, by omega⟩), if_neg (by omega),
    if_neg (not_not_intro rfl)]

/-- Settles O36: both checks pass, and without a key INIT's session is that of `CtxInit` on the block of R66. -/
theorem initParamsIsUnkeyedInit : Obligations.InitParamsIsUnkeyedInit := by
  intro s o sl pl ho ho' hsl hpl hsalt hpers hpb
  have hparams : s.check (.initParams false) = .ok := by
    simp only [State.check, State.checkInitParams, hpb]
    exact checkParams_encodeParams _ _ ho ho' (Nat.zero_le _)
  have hinit : s.check (.init o 0 sl pl) = .ok :=
    check_init_eq_ok ⟨hsl, hpl, ho, ho', by decide⟩ (Platform.admits_zero _ _) hsalt hpers
  refine ⟨_, exec_of_check_ok hparams, ?_, rfl⟩
  rw [exec_of_check_ok hinit]
  simp only [effectCtx, effectMem, hpb]
  rfl

/-! ### The fill of the buffer (R85, R87) -/

@[simp] theorem absorb_append_singleton (c : Session) (bytes : List Byte) (b : Byte) :
    c.absorb (bytes ++ [b]) = (c.absorb bytes).absorbByte b := by
  rw [Session.absorb_append, Session.absorb_cons, Session.absorb_nil]

/-- Counter and fill after any number of bytes, by adding the bytes at the end one by one: of the `buflen + n` bytes,
every full block but the last has been counted. -/
theorem absorb_counter_fill (c : Session) (bytes : List Byte) (hc : c.buflen ≤ 128) :
    (c.absorb bytes).t = advance c.t (128 * ((c.buflen + bytes.length - 1) / 128)) ∧
      (c.absorb bytes).buflen = c.buflen + bytes.length - 128 * ((c.buflen + bytes.length - 1) / 128) := by
  induction bytes using List.reverseRecOn with
  | nil =>
    have hblocks : (c.buflen + ([] : List Byte).length - 1) / 128 = 0 := by rw [List.length_nil]; omega
    rw [hblocks]
    exact ⟨by simp [advance], rfl⟩
  | append_singleton bytes b ih =>
    obtain ⟨ht, hfill⟩ := ih
    rw [absorb_append_singleton, Session.absorbByte, List.length_append, List.length_singleton]
    split
    next hfull =>
      have hblocks : (c.buflen + (bytes.length + 1) - 1) / 128 = (c.buflen + bytes.length - 1) / 128 + 1 := by omega
      rw [Session.push_t, Session.push_buflen, Session.flush_t, Session.flush_buflen, ht, advance_advance, hblocks]
      exact ⟨by rw [Nat.mul_add_one], by omega⟩
    next hroom =>
      have hblocks : (c.buflen + (bytes.length + 1) - 1) / 128 = (c.buflen + bytes.length - 1) / 128 := by omega
      rw [Session.push_t, Session.push_buflen, ht, hfill, hblocks]
      exact ⟨rfl, by omega⟩

/-- Settles O30: the closed form is `absorb_counter_fill`, and its fill is in 1..128 once a byte has come. -/
theorem updateCounterAndFill : Obligations.UpdateCounterAndFill := by
  refine fun c bytes hc => ⟨fun h => by rw [h, Session.absorb_nil], fun hne => ?_⟩
  obtain ⟨ht, hfill⟩ := absorb_counter_fill c bytes hc
  have hpos : 0 < bytes.length := List.length_pos_iff.mpr hne
  exact ⟨ht, hfill, by omega, by omega⟩

/-! ### Two UPDATEs on adjacent ranges (R87 item 1) -/

/-- `Absorb` does not look at the phase. -/
theorem absorb_enter (c : Session) (p : Phase) (bytes : List Byte) :
    (c.enter p).absorb bytes = (c.absorb bytes).enter p := by
  induction bytes generalizing c with
  | nil => rfl
  | cons b bytes ih =>
    have hturn : (c.enter p).absorbByte b = (c.absorbByte b).enter p :=
      (apply_ite (Session.enter · p) (c.buflen = 128) (c.flush.push b) (c.push b)).symm
    rw [Session.absorb_cons, hturn, ih, Session.absorb_cons]

/-- Both parts of an admitted range are admitted (R41). -/
theorem admits_split {p : Platform} {a n m : Nat} (h : p.admits ⟨a, n + m⟩ = true) :
    p.admits ⟨a, n⟩ = true ∧ p.admits ⟨a + n, m⟩ = true := by
  rw [admits_iff] at h
  rw [admits_iff, admits_iff]
  rcases h with hempty | ⟨hbound, hbytes⟩
  · exact ⟨.inl (by omega), .inl (by omega)⟩
  · refine ⟨.inr ⟨by omega, fun i hi => hbytes i (by omega)⟩, .inr ⟨by omega, fun i hi => ?_⟩⟩
    rw [Nat.add_assoc]
    exact hbytes (n + i) (by omega)

/-- The second of two adjacent ranges is empty or starts below 2^64, so that its address does not wrap. -/
theorem second_start {p : Platform} {a n m : Word} (h : p.admits ⟨a.toNat, n.toNat + m.toNat⟩ = true) :
    m.toNat = 0 ∨ (a + n).toNat = a.toNat + n.toNat := by
  rw [admits_iff] at h
  rw [BitVec.toNat_add]
  omega

/-- Settles O31: the second UPDATE reads the bytes after the first's, from the session the first left, and `Absorb` of
the two strings in turn is `Absorb` of the whole. -/
theorem updateSplit : Obligations.UpdateSplit := by
  intro s n m hopen hfit hlen hsrc
  have hsum : s.latch.srcLen.toNat = n.toNat + m.toNat := by
    rw [hlen, BitVec.toNat_add, Nat.mod_eq_of_lt hfit]
  have hwhole := hsrc
  rw [hsum] at hsrc
  obtain ⟨hfirst, hrest⟩ := admits_split hsrc
  have hsecond : s.platform.admits ⟨(s.latch.src + n).toNat, m.toNat⟩ = true ∧
      s.mem.readBytes (s.latch.src + n).toNat m.toNat = s.mem.readBytes (s.latch.src.toNat + n.toNat) m.toNat := by
    rcases second_start hsrc with hempty | hstart
    · rw [hempty]
      exact ⟨Platform.admits_zero _ _, rfl⟩
    · rw [hstart]
      exact ⟨hrest, rfl⟩
  obtain ⟨hadmits, hbytes⟩ := hsecond
  refine ⟨_, _, _, exec_of_check_ok (check_update_eq_ok hopen hwhole),
    exec_of_check_ok (check_update_eq_ok (s := { s with latch := { s.latch with srcLen := n } }) hopen hfirst),
    exec_of_check_ok (check_update_eq_ok (.inr rfl) hadmits), ?_, rfl, rfl, rfl, rfl⟩
  simp only [effectCtx, effectMem, State.messageBytes, hsum, hbytes, Memory.readBytes_add, Session.absorb_append,
    absorb_enter]
  rfl

/-! ### The valid bytes of the buffer (R31) -/

/-- The bytes of the buffer that count: the first `buflen` (R31). -/
def validBytes (c : Session) : List Byte := c.buf.toList.take c.buflen

theorem validBytes_length {c : Session} (hc : c.buflen ≤ 128) : (validBytes c).length = c.buflen := by
  simp [validBytes, hc]

theorem validBytes_of_empty {c : Session} (hc : c.buflen = 0) : validBytes c = [] := by
  rw [validBytes, hc, List.take_zero]

theorem padTo_toList {n : Nat} (v : Vector Byte n) : padTo n v.toList = v := by
  rw [← List.append_nil v.toList, padTo_toList_append]

theorem validBytes_push {c : Session} (b : Byte) (hroom : c.buflen < 128) :
    validBytes (c.push b) = validBytes c ++ [b] := by
  simp [validBytes, List.take_add_one, List.take_set_of_le, hroom]

/-- `Finish` compresses the valid bytes, zero-padded (R86). -/
theorem paddedBuf_eq (c : Session) : c.paddedBuf = padTo 128 (validBytes c) := by
  ext i hi
  by_cases hvalid : i < c.buflen
  · simp [Session.paddedBuf, validBytes, List.getD, hi, hvalid]
  · simp [Session.paddedBuf, validBytes, List.getD, hvalid]

/-- A full buffer is compressed as it stands (R85), which is its valid bytes. -/
theorem buf_eq_of_full {c : Session} (hfull : c.buflen = 128) : c.buf = padTo 128 (validBytes c) := by
  rw [validBytes, hfull, List.take_of_length_le (by simp), padTo_toList]

/-- Bytes that fit in the buffer are put after its valid bytes, and nothing is compressed. -/
theorem absorb_within_block {c : Session} {bytes : List Byte} (hfit : c.buflen + bytes.length ≤ 128) :
    validBytes (c.absorb bytes) = validBytes c ++ bytes ∧ (c.absorb bytes).buflen = c.buflen + bytes.length ∧
      (c.absorb bytes).h = c.h ∧ (c.absorb bytes).t = c.t := by
  induction bytes generalizing c with
  | nil => exact ⟨(List.append_nil _).symm, rfl, rfl, rfl⟩
  | cons b bytes ih =>
    rw [List.length_cons] at hfit
    have hturn : c.absorbByte b = c.push b := if_neg (by omega)
    obtain ⟨hvalid, hfill, hh, ht⟩ := ih (c := c.push b) (by rw [Session.push_buflen]; omega)
    rw [Session.absorb_cons, hturn, hvalid, hfill, hh, ht, validBytes_push b (by omega), Session.push_buflen,
      List.append_assoc, List.length_cons]
    exact ⟨rfl, by omega, rfl, rfl⟩

/-- A full buffer is compressed when another byte follows: the same as compressing it first (R85). -/
theorem absorb_of_full {c : Session} {bytes : List Byte} (hfull : c.buflen = 128) (hne : bytes ≠ []) :
    c.absorb bytes = c.flush.absorb bytes := by
  cases bytes with
  | nil => exact absurd rfl hne
  | cons b bytes =>
    have hturn : c.absorbByte b = c.flush.absorbByte b := by
      simp [Session.absorbByte, hfull]
    rw [Session.absorb_cons, hturn, Session.absorb_cons]

/-! ### Streaming is the chain of blocks (R87) -/

/-- The last block of the chain (R87 item 3): its one branch for a stream of at most 128 bytes, whatever the fuel. -/
theorem chainBlocks_last (fuel : Nat) (h : Vector Word 8) (t : Nat) {x : List Byte} (f1 : Word)
    (hx : x.length ≤ 128) :
    chainBlocks fuel h t x f1 = compress h (padTo 128 x) (BitVec.ofNat 128 (t + x.length)) allOnes64 f1 := by
  cases fuel with
  | zero => rfl
  | succ fuel => exact if_pos hx

/-- A block of the chain with more to follow (R87 item 3). -/
theorem chainBlocks_step (fuel : Nat) (h : Vector Word 8) (t : Nat) {block rest : List Byte} (f1 : Word)
    (hblock : block.length = 128) (hrest : rest ≠ []) :
    chainBlocks (fuel + 1) h t (block ++ rest) f1 =
      chainBlocks fuel (compress h (padTo 128 block) (BitVec.ofNat 128 (t + 128)) 0 0) (t + 128) rest f1 := by
  have hlong : ¬ (block ++ rest).length ≤ 128 := by
    have hpos := List.length_pos_iff.mpr hrest
    rw [List.length_append]
    omega
  rw [chainBlocks, if_neg hlong, List.take_left' hblock, List.drop_left' hblock]

theorem advance_ofNat (t n : Nat) : advance (BitVec.ofNat 128 t) n = BitVec.ofNat 128 (t + n) :=
  (BitVec.ofNat_add t n).symm

/-- Absorbing bytes that fit in the buffer and finishing is the last block of the chain. -/
theorem finish_absorb_last (fuel : Nat) {c : Session} {t : Nat} {bytes : List Byte}
    (hfit : c.buflen + bytes.length ≤ 128) (ht : c.t = BitVec.ofNat 128 t) :
    (c.absorb bytes).finish.h = chainBlocks fuel c.h t (validBytes c ++ bytes) (finalF1 c.lastNode) := by
  obtain ⟨hvalid, hfill, hh, hcounter⟩ := absorb_within_block hfit
  have hlen : (validBytes c ++ bytes).length = c.buflen + bytes.length := by
    rw [List.length_append, validBytes_length (by omega)]
  rw [chainBlocks_last _ _ _ _ (by omega), Session.finish_h, paddedBuf_eq, hvalid, hfill, hh, hcounter, ht,
    advance_ofNat, absorb_lastNode, hlen]
  rfl

/-- Absorbing and finishing from any session is the chain of blocks over its valid bytes and the input, from its
chaining state and counter. The induction is on the chain's blocks: between two of them the buffer is full and another
byte follows. -/
theorem finish_absorb_eq_chainBlocks (fuel : Nat) {c : Session} {t : Nat} {bytes : List Byte} (hc : c.buflen ≤ 128)
    (ht : c.t = BitVec.ofNat 128 t) (hfuel : c.buflen + bytes.length ≤ fuel) :
    (c.absorb bytes).finish.h = chainBlocks fuel c.h t (validBytes c ++ bytes) (finalF1 c.lastNode) := by
  induction fuel generalizing c t bytes with
  | zero => exact finish_absorb_last 0 (by omega) ht
  | succ fuel ih =>
    by_cases hfit : c.buflen + bytes.length ≤ 128
    · exact finish_absorb_last (fuel + 1) hfit ht
    · obtain ⟨fill, rest, rfl, hfill⟩ : ∃ fill rest, bytes = fill ++ rest ∧ fill.length = 128 - c.buflen :=
        ⟨_, _, (List.take_append_drop (128 - c.buflen) bytes).symm, by simp; omega⟩
      rw [List.length_append] at hfit hfuel
      have hrest : rest ≠ [] := fun h => by rw [h, List.length_nil] at hfit; omega
      obtain ⟨hvalid, hlength, hh, hcounter⟩ := absorb_within_block (c := c) (bytes := fill) (by omega)
      have hfull : (c.absorb fill).buflen = 128 := by omega
      have hblock : (validBytes c ++ fill).length = 128 := by
        rw [List.length_append, validBytes_length hc]
        omega
      have hflush : (c.absorb fill).flush.t = BitVec.ofNat 128 (t + 128) := by
        rw [Session.flush_t, hcounter, ht, advance_ofNat]
      rw [Session.absorb_append, absorb_of_full hfull hrest,
        ih (by simp) hflush (by rw [Session.flush_buflen]; omega), validBytes_of_empty (Session.flush_buflen _),
        List.nil_append, Session.flush_h, ← Session.flush_t, hflush, buf_eq_of_full hfull, hvalid, hh,
        Session.flush_lastNode, absorb_lastNode, ← List.append_assoc, chainBlocks_step _ _ _ _ hblock hrest]

/-- The session after a list of chunks is that after their concatenation (R87 item 1). -/
theorem foldl_absorb_flatten (c : Session) (chunks : List (List Byte)) :
    chunks.foldl Session.absorb c = c.absorb chunks.flatten := by
  induction chunks generalizing c with
  | nil => rfl
  | cons x chunks ih => rw [List.foldl_cons, ih, List.flatten_cons, Session.absorb_append]

/-- The stream of R87 begins with the valid bytes of INIT's session: the padded key block, if there is a key. -/
theorem absorbedStream_eq (o : Nat) {key : List Byte} (salt pers message : List Byte) (hkey : key.length ≤ 64) :
    absorbedStream key message = validBytes (startSession o key salt pers) ++ message := by
  rw [absorbedStream, startSession, validBytes, Session.loadKey_buf, Session.loadKey_buflen]
  split
  next =>
    have hlen : (key ++ zeros (128 - key.length)).length = 128 := by simp; omega
    rw [toList_padTo, List.take_of_length_le (by omega : key.length ≤ 128), List.take_of_length_le hlen.le]
  next => rfl

/-- Settles O32: both kinds of session start with counter 0, so the chain begins at their seeded chaining state and
covers their valid bytes and the whole message. -/
theorem streamingIsTheBlockChain : Obligations.StreamingIsTheBlockChain := by
  refine ⟨fun o key salt pers chunks hkey => ?_, fun pb ln chunks => ?_⟩
  · have hstart : (startSession o key salt pers).buflen ≤ 128 := by
      rw [startSession, Session.loadKey_buflen]
      split <;> simp
    have hstream := absorbedStream_eq o salt pers chunks.flatten hkey
    have hlen : (absorbedStream key chunks.flatten).length =
        (startSession o key salt pers).buflen + chunks.flatten.length := by
      rw [hstream, List.length_append, validBytes_length hstart]
    rw [foldl_absorb_flatten, Session.digest, plainHash,
      finish_absorb_eq_chainBlocks (t := 0) _ hstart (Session.loadKey_t _ _) hlen.ge, ← hstream,
      startSession_lastNode, startSession, Session.loadKey_h, ctxInit_h]
    rfl
  · have hstart : (ctxInit pb.toList ln).buflen = 0 := rfl
    have hlen : (ctxInit pb.toList ln).buflen + chunks.flatten.length ≤ chunks.flatten.length := by omega
    rw [foldl_absorb_flatten, Session.digest, plainParams,
      finish_absorb_eq_chainBlocks (t := 0) _ (by omega) rfl hlen, validBytes_of_empty hstart, List.nil_append,
      getD_zero_toList]
    rfl

end Sys2Proof.Proofs
end

section
/-!
PROOFS. The one-shot hash (spec/43_oneshot.md rule R88): where HASH completes, the digest it writes, and its equivalence
with INIT, UPDATE and FINAL.
-/

namespace Sys2Proof.Proofs

open Sys2Proof.Machine Sys2Proof.Safety

/-! ### Where HASH completes (R88, R96) -/

/-- HASH passes its check exactly with lengths in range and all five ranges admitted, in every phase. -/
theorem check_hash_eq_ok_iff (s : State) (o k : BitVec 7) (sl pl : BitVec 5) :
    s.check (.hash o k sl pl) = .ok ↔
      (sl.toNat ≤ 16 ∧ pl.toNat ≤ 16 ∧ 1 ≤ o.toNat ∧ o.toNat ≤ 64 ∧ k.toNat ≤ 64) ∧
        s.platform.admits ⟨s.latch.key.toNat, k.toNat⟩ = true ∧
        s.platform.admits ⟨s.latch.salt.toNat, sl.toNat⟩ = true ∧
        s.platform.admits ⟨s.latch.pers.toNat, pl.toNat⟩ = true ∧
        s.platform.admits ⟨s.latch.src.toNat, s.latch.srcLen.toNat⟩ = true ∧
        s.platform.admits ⟨s.latch.dst.toNat, o.toNat⟩ = true := by
  rw [State.check, checkHash_ok, badLengths_eq_false, badOutlen_eq_false, badKeylen_eq_false, rangeFault_eq_false]
  simp [State.ranges, State.readRanges, State.writeRanges, and_assoc]

/-- Settles O18: the check passes, and the session is that of a one-shot hash, whose flags, last-node flag and length
are known. -/
theorem hashCompletes : Obligations.HashCompletes := by
  intro s o k sl pl ho ho' hk hsl hpl hkey hsalt hpers hsrc hdst
  have hcheck : s.check (.hash o k sl pl) = .ok :=
    (check_hash_eq_ok_iff s o k sl pl).mpr ⟨⟨hsl, hpl, ho, ho', hk⟩, hkey, hsalt, hpers, hsrc, hdst⟩
  exact ⟨(s.hashOperands o k sl pl).enter .finalized, rfl, oneShot_outlen _ _ _ _ _ (outlenField_lt o),
    oneShot_lastNode .., rfl, oneShot_f1 .., exec_of_check_ok hcheck⟩

/-! ### The digest HASH writes (R51, R87) -/

/-- A byte string reads back from where it was written. -/
theorem readBytes_writeBytes_same {m : Memory} (a : Nat) {bs : List Byte} {n : Nat} (hm : m.wf) (hn : bs.length = n) :
    (m.writeBytes a bs).readBytes a n = bs := by
  refine List.ext_getElem ((Memory.readBytes_length ..).trans hn.symm) fun i hi hbs => ?_
  rw [Memory.readBytes_getElem, Memory.read_writeBytes_same _ _ _ _ hm hbs]

/-- A one-shot hash is a stream of one chunk, so its digest is that of the chain of blocks (R87). -/
theorem oneShot_digest (o : Nat) {key : List Byte} (salt pers message : List Byte) (hkey : key.length ≤ 64) :
    (oneShot o key salt pers message).digest.take o = plainHash o key salt pers message := by
  have hstream := streamingIsTheBlockChain.1 o key salt pers [message] hkey
  rwa [foldl_absorb_flatten, List.flatten_singleton] at hstream

/-- Settles O33: HASH stores the digest of the operands before the store, and `o` bytes of it are read back. -/
theorem hashWritesTheBlockChain : Obligations.HashWritesTheBlockChain := by
  intro s t o k sl pl hwf h hok
  obtain ⟨hcheck, -, hmem⟩ := exec_success h hok
  obtain ⟨⟨-, -, -, ho, hk⟩, -⟩ := (check_hash_eq_ok_iff s o k sl pl).mp hcheck
  have hlen : ((s.hashOperands o k sl pl).digest.take o.toNat).length = o.toNat := by simp [ho]
  rw [hmem]
  exact (readBytes_writeBytes_same _ hwf hlen).trans (oneShot_digest _ _ _ _ ((Memory.readBytes_length ..).trans_le hk))

/-! ### Issuing a command to an idle engine (R93, R94) -/

/-- A command that passes its check has a word: its SALTLEN and PERSLEN are legal (R61 item 4, R96 group 1). -/
theorem wellFormed_of_check_ok {i : Instr} {s : State} (h : s.check i = .ok) : i.wellFormed = true := by
  cases i with
  | init o k sl pl => exact (Bool.not_eq_false' _).mp ((checkInit_ok s o k sl pl).mp h).1
  | hash o k sl pl => exact (Bool.not_eq_false' _).mp ((checkHash_ok s o k sl pl).mp h).1
  | _ => rfl

/-- The state after a command that is issued to an idle engine and passes its check: that of its acceptance, with the
command's effect. -/
def issued (i : Instr) (s : State) : State :=
  { s.accept (encode i) with
    ctx := effectCtx i (s.accept (encode i))
    mem := effectMem i (s.accept (encode i))
    err := .ok
    busy := false }

@[simp] theorem issued_ctx (i : Instr) (s : State) : (issued i s).ctx = effectCtx i (s.accept (encode i)) := rfl

@[simp] theorem issued_mem (i : Instr) (s : State) : (issued i s).mem = effectMem i (s.accept (encode i)) := rfl

/-- An idle engine decodes the word it accepts as the command issued, and completes it with its effect. -/
theorem issue_of_check_ok {i : Instr} {s : State} (hreset : s.resetDone = true) (hbusy : s.busy = false)
    (h : (s.accept (encode i)).check i = .ok) : issue i s = .next (issued i s) := by
  have hdecode : decodeCommand (s.accept (encode i)).latch.cmd = .ok i := decodeOfEncode i (wellFormed_of_check_ok h)
  rw [issue, writeReg_cmd_of_idle hbusy, issued, ← exec_of_check_ok h]
  simp only [State.engineMove, State.completeCommand, hdecode, State.accept_resetDone, State.accept_busy, hreset,
    if_true]

/-! ### HASH and the three streaming commands (R88) -/

/-- `Finish` does not look at the phase. -/
theorem finish_enter (c : Session) (p : Phase) : (c.enter p).finish = c.finish.enter p := rfl

section Streamed
variable (s : State) (o k : BitVec 7) (sl pl : BitVec 5)

/-- The state after INIT and UPDATE. -/
def streamed : State := issued .update (issued (.init o k sl pl) s)

/-- Each command copies the same operand registers to its latch, so INIT and UPDATE read the operands that HASH
reads. -/
theorem streamed_ctx :
    (streamed s o k sl pl).ctx =
      ((effectCtx (.init o k sl pl) (s.accept (encode (.hash o k sl pl)))).absorb
        (s.accept (encode (.hash o k sl pl))).messageBytes).enter .absorbing := rfl

/-- `Finish` after INIT and UPDATE gives the session of HASH but for its phase. -/
theorem streamed_finish :
    (streamed s o k sl pl).ctx.finish =
      ((s.accept (encode (.hash o k sl pl))).hashOperands o k sl pl).enter .absorbing := by
  rw [streamed_ctx, finish_enter]
  rfl

theorem streamed_outlen : (streamed s o k sl pl).ctx.outlen = o.toNat := by
  rw [← Session.finish_outlen, streamed_finish, Session.enter_outlen]
  exact oneShot_outlen _ _ _ _ _ (outlenField_lt o)

/-- FINAL stores as many bytes as HASH, the session's digest length being INIT's. -/
theorem issued_final_streamed_mem :
    (issued (.final o) (streamed s o k sl pl)).mem = (issued (.hash o k sl pl) s).mem := by
  simp only [issued_mem, effectMem, State.accept_ctx, streamed_outlen, streamed_finish]
  rfl

theorem issued_final_streamed_ctx :
    (issued (.final o) (streamed s o k sl pl)).ctx = (issued (.hash o k sl pl) s).ctx := by
  simp only [issued_ctx, effectCtx, State.accept_ctx, streamed_finish]
  rfl

end Streamed

/-- Settles O35: INIT, UPDATE and FINAL pass the tests that HASH passes, UPDATE and FINAL finding the session open, and
leave its memory and its session. -/
theorem hashIsInitUpdateFinal : Obligations.HashIsInitUpdateFinal := by
  intro s o k sl pl hreset hbusy hcheck
  obtain ⟨hlengths, hkey, hsalt, hpers, hsrc, hdst⟩ := (check_hash_eq_ok_iff _ o k sl pl).mp hcheck
  have hinit : (s.accept (encode (.init o k sl pl))).check (.init o k sl pl) = .ok :=
    check_init_eq_ok hlengths hkey hsalt hpers
  have hupdate : ((issued (.init o k sl pl) s).accept (encode .update)).check .update = .ok :=
    check_update_eq_ok (.inl (startSession_phase ..)) hsrc
  have hout : o.toNat = (streamed s o k sl pl).ctx.outlen := (streamed_outlen s o k sl pl).symm
  have hfinal : ((streamed s o k sl pl).accept (encode (.final o))).check (.final o) = .ok :=
    check_final_eq_ok (.inr rfl) hout (hout ▸ hdst)
  have hmem := issued_final_streamed_mem s o k sl pl
  have hctx := issued_final_streamed_ctx s o k sl pl
  exact ⟨_, _, _, _, issue_of_check_ok hreset hbusy hcheck, issue_of_check_ok hreset hbusy hinit,
    issue_of_check_ok hreset rfl hupdate, issue_of_check_ok hreset rfl hfinal, hmem,
    status_congr rfl rfl (congrArg Session.phase hctx), hctx⟩

end Sys2Proof.Proofs
end

section
/-!
PROOFS. The extended-output command (spec/44_long.md): the closed form of the chain of hashes (R90 to R92), where
HASH_LONG completes, and the output it writes.
-/

namespace Sys2Proof.Proofs

open Sys2Proof.Machine Sys2Proof.Safety

/-! ### The counter of an inner hash (R39, R89) -/

/-- An unkeyed one-shot hash counts every byte of its message. -/
theorem oneShot_counter_of_unkeyed (n : Nat) (salt pers message : List Byte) :
    (oneShot n [] salt pers message).t = BitVec.ofNat 128 message.length := by
  have hstart : (startSession n [] salt pers).buflen = 0 := rfl
  obtain ⟨ht, hfill⟩ := absorb_counter_fill (startSession n [] salt pers) message (by omega)
  rw [oneShot, Session.finish_t, ht, hfill, hstart, advance_advance]
  have hzero : (startSession n [] salt pers).t = BitVec.ofNat 128 0 := rfl
  rw [hzero, advance_ofNat]
  congr 1
  omega

/-! ### The schedule of HASH_LONG in closed form (R90 to R92) -/

/-- `r` of R92: the number of inner hashes that emit 32 bytes; 0 up to 64 bytes of output. -/
def longTurns (total : Nat) : Nat := (total + 31) / 32 - 2

/-- The output of the inner hashes that emit 32 bytes: the first halves of `V1` to `Vr` (R92). -/
def longPrefix (p : List Byte) (r : Nat) : List Byte := (List.range r).flatMap fun j => (longValue p j).take 32

/-- What the last inner hash absorbs: the prefixed input, or the last 64-byte value (R90). -/
def lastInnerInput (total : Nat) (p : List Byte) : List Byte :=
  if total ≤ 64 then p else longValue p (longTurns total - 1)

theorem longPrefix_succ (p : List Byte) (r : Nat) :
    longPrefix p (r + 1) = longPrefix p r ++ (longValue p r).take 32 := by
  simp [longPrefix, List.range_succ]

theorem longTurns_of_le {total : Nat} (h : total ≤ 64) : longTurns total = 0 := by
  simp only [longTurns]
  omega

/-- A turn of the loop of R90 leaves one turn less to come. -/
theorem longTurns_sub {total : Nat} (h : 64 < total) : longTurns (total - 32) + 1 = longTurns total := by
  simp only [longTurns]
  omega

/-- What the loop of R90 comes to at `V(j+1)`, with `rem` bytes still to come and the first halves of `V1` to `V(j+1)`
emitted: the last inner hash's session, and the whole output. -/
def longRest (p : List Byte) (j rem : Nat) : Session × List Byte :=
  (hashSession (lastInnerLength rem) (longValue p (j + longTurns rem)),
    longPrefix p (j + longTurns rem + 1) ++ hashH (lastInnerLength rem) (longValue p (j + longTurns rem)))

theorem longRest_of_le (p : List Byte) (j : Nat) {rem : Nat} (h : rem ≤ 64) :
    longRest p j rem = (hashSession rem (longValue p j), longPrefix p (j + 1) ++ hashH rem (longValue p j)) := by
  simp only [longRest, lastInnerLength_of_le h, longTurns_of_le h, Nat.add_zero]

/-- A turn of the loop does not change what it comes to. -/
theorem longRest_turn (p : List Byte) (j : Nat) {rem : Nat} (h : 64 < rem) :
    longRest p (j + 1) (rem - 32) = longRest p j rem := by
  have hturns : j + 1 + longTurns (rem - 32) = j + longTurns rem := by
    rw [← longTurns_sub h]
    omega
  simp only [longRest, lastInnerLength_sub h, hturns]

/-- With enough fuel, the loop of R90 ends where `longRest` says. -/
theorem longLoop_eq_longRest (fuel : Nat) (p : List Byte) (j rem : Nat) (hfuel : rem ≤ 32 * fuel + 64) :
    longLoop fuel (longValue p j) (longPrefix p (j + 1)) rem = longRest p j rem := by
  induction fuel generalizing j rem with
  | zero => rw [longLoop, longRest_of_le p j (by omega)]
  | succ fuel ih =>
    rw [longLoop]
    split
    next hlong =>
      rw [← longRest_turn p j hlong, ← ih (j + 1) (rem - 32) (by omega), longPrefix_succ p (j + 1)]
      rfl
    next hlast => rw [longRest_of_le p j (by omega)]

/-- The output of R92 for more than 64 bytes, by the names above. -/
theorem plainLong_of_gt (len : BitVec 32) (x : List Byte) (h : 64 < len.toNat) :
    plainLong len.toNat x =
      longPrefix (bytes32 len ++ x) (longTurns len.toNat) ++
        hashH (lastInnerLength len.toNat) (lastInnerInput len.toNat (bytes32 len ++ x)) := by
  rw [plainLong, BitVec.ofNat_toNat, BitVec.setWidth_eq, lastInnerInput, if_neg (by omega), if_neg (by omega)]
  rfl

theorem plainLong_of_le (len : BitVec 32) (x : List Byte) (h : len.toNat ≤ 64) :
    plainLong len.toNat x = hashH len.toNat (bytes32 len ++ x) := by
  rw [plainLong, BitVec.ofNat_toNat, BitVec.setWidth_eq, if_pos h]

/-- HASH_LONG leaves the session of the last inner hash of the schedule, and its output is that of R92. -/
theorem hashLongOutput_eq (len : BitVec 32) (x : List Byte) :
    hashLongOutput len x =
      (hashSession (lastInnerLength len.toNat) (lastInnerInput len.toNat (bytes32 len ++ x)),
        plainLong len.toNat x) := by
  rw [hashLongOutput]
  split
  next hshort => rw [plainLong_of_le len x hshort, lastInnerLength_of_le hshort, lastInnerInput, if_pos hshort]
  next hshort =>
    have hlong : 64 < len.toNat := Nat.lt_of_not_le hshort
    have hturns : longTurns len.toNat = longTurns (len.toNat - 32) + 1 := (longTurns_sub hlong).symm
    have hloop := longLoop_eq_longRest len.toNat (bytes32 len ++ x) 0 (len.toNat - 32) (by omega)
    simp only [longRest, lastInnerLength_sub hlong, Nat.zero_add] at hloop
    rw [plainLong_of_gt len x hlong, lastInnerInput, if_neg hshort, hturns]
    exact hloop

/-! ### Where HASH_LONG completes (R90, R96) -/

theorem check_hashLong_eq_ok {s : State} (hlen : s.latch.longLen ≠ 0)
    (hsrc : s.platform.admits ⟨s.latch.src.toNat, s.latch.srcLen.toNat⟩ = true)
    (hdst : s.platform.admits ⟨s.latch.dst.toNat, s.latch.longLen.toNat⟩ = true) : s.check .hashLong = .ok := by
  refine (checkHashLong_ok s).mpr ⟨hlen, (rangeFault_eq_false s _).mpr ?_⟩
  simp [State.ranges, State.readRanges, State.writeRanges, hsrc, hdst]

/-- Settles O19: the check passes; the session is that of the last inner hash of the schedule, an unkeyed one-shot
hash, and the output is the schedule's. -/
theorem hashLongCompletes : Obligations.HashLongCompletes := by
  intro s hlen hsrc hdst
  obtain ⟨hf0, hf1, hlastNode, houtlen⟩ := hashLongOutput_fields s.latch.longLen s.messageBytes
  have hlength := hashLongOutput_length s.latch.longLen s.messageBytes
  have hexec := exec_of_check_ok (check_hashLong_eq_ok hlen hsrc hdst)
  simp only [effectCtx, effectMem] at hexec
  rw [hashLongOutput_eq] at hf0 hf1 hlastNode houtlen hlength hexec
  exact ⟨_, lastInnerLength s.latch.longLen.toNat, _, lastInnerInput s.latch.longLen.toNat _, _, rfl,
    lastInnerLength_eq_ite _, rfl, rfl, oneShot_counter_of_unkeyed .., houtlen, hlastNode, hf0, hf1, hlength, rfl,
    hexec⟩

/-! ### The output HASH_LONG writes (R51, R92) -/

/-- Settles O34: HASH_LONG stores the schedule's output on the input before the store, and `LT` bytes of it are read
back. -/
theorem hashLongWritesTheSchedule : Obligations.HashLongWritesTheSchedule := by
  intro s t hwf h hok
  obtain ⟨-, -, hmem⟩ := exec_success h hok
  rw [hmem]
  exact (readBytes_writeBytes_same _ hwf (hashLongOutput_length _ _)).trans
    (congrArg Prod.snd (hashLongOutput_eq _ _))

end Sys2Proof.Proofs
end

section
/-!
PROOFS. Acceptance and completion of a command (spec/60_exceptions.md rules R93 to R98): what the latch takes, what the
completion step runs and how it ends, and which moves change BUSY or ERR.
-/

namespace Sys2Proof.Proofs

open Sys2Proof.Machine Sys2Proof.Safety

/-! ### The completion step (R94) -/

/-- A decoded command in the latch of a BUSY engine is what the engine's move runs. -/
theorem engineMove_of_decoded {s : State} {i : Instr} (hreset : s.resetDone = true) (hbusy : s.busy = true)
    (h : decodeCommand s.latch.cmd = .ok i) : s.engineMove = exec i s := by
  simp [State.engineMove, State.completeCommand, hreset, hbusy, h]

/-- An idle engine that has been reset has a move, and it changes nothing (log 12). -/
theorem engineMove_idle {s : State} (hreset : s.resetDone = true) (hbusy : s.busy = false) :
    s.engineMove = .next s := by
  simp [State.engineMove, hreset, hbusy]

/-- Where the engine moves next, the step is its move. -/
theorem step_of_engine {s : State} (h : s.nextMove = .engine) : step s = s.popMove.engineMove := by
  rw [step, h, State.runMove]

/-- A command ends with BUSY 0, on a machine still reset, and on an error it has changed nothing but ERR and BUSY. -/
theorem exec_completes (i : Instr) (s : State) :
    ∃ t, exec i s = .next t ∧ t.busy = false ∧ t.resetDone = s.resetDone ∧
      (t.err ≠ .ok → t = failedWith s t.err) := by
  rcases exec_cases i s with ⟨-, hexec⟩ | ⟨-, hexec⟩
  · exact ⟨_, hexec, rfl, rfl, fun herr => absurd rfl herr⟩
  · exact ⟨_, hexec, rfl, rfl, fun _ => rfl⟩

/-- The same of the engine's move, for every word in the latch. -/
theorem engineMove_completes {s : State} (hreset : s.resetDone = true) (hbusy : s.busy = true) :
    ∃ t, s.engineMove = .next t ∧ t.busy = false ∧ t.resetDone = s.resetDone ∧
      (t.err ≠ .ok → t = failedWith s t.err) := by
  cases hdecode : decodeCommand s.latch.cmd with
  | error e => exact ⟨_, engineMove_of_illegal hreset hbusy hdecode, rfl, rfl, fun _ => rfl⟩
  | ok i =>
    rw [engineMove_of_decoded hreset hbusy hdecode]
    exact exec_completes i s

/-- Settles O25: the completion step always ends (`engineMove_completes`), in a state where the engine is idle. -/
theorem everyCommandCompletes : Obligations.EveryCommandCompletes := by
  intro s hreset hbusy
  obtain ⟨t, hmove, hidle, hkept, herr⟩ := engineMove_completes hreset hbusy
  exact ⟨t, hmove, hidle, engineMove_idle (hkept.trans hreset) hidle, herr⟩

/-- Settles O52: the step is the engine's move on the state without it, which runs what the latch decodes to. -/
theorem stepRunsTheCommand : Obligations.StepRunsTheCommand := by
  intro s i hreset hbusy hmove hdecode
  rw [step_of_engine hmove]
  exact engineMove_of_decoded (s := s.popMove) hreset hbusy hdecode

theorem tableWord_toNat (w : Word) : tableWord 64 w.toNat = w := by
  rw [tableWord, Nat.mod_eq_of_lt w.isLt, BitVec.ofNat_toNat, BitVec.setWidth_eq]

/-- Settles O53: placing a word accepts it and puts the engine's move in front, so `stepRunsTheCommand` applies. -/
theorem placedWordRuns : Obligations.PlacedWordRuns := by
  intro s w i hdecode
  rw [State.withFetchWord, tableWord_toNat]
  exact stepRunsTheCommand (s.placeCommand w) i rfl rfl rfl hdecode

/-! ### Acceptance (R93) -/

/-- Byte `8j + k` of an array of words is byte `k` of word `j` (R7). -/
theorem getD_flatMap_bytes64 (ws : List Word) (j k : Nat) (hj : j < ws.length) (hk : k < 8) :
    (ws.flatMap bytes64).getD (8 * j + k) 0 = byteOf ws[j] k := by
  induction ws generalizing j with
  | nil => cases hj
  | cons w ws ih =>
    rw [List.flatMap_cons]
    cases j with
    | zero =>
      rw [List.getD_append _ _ _ _ (by simpa using hk)]
      simp [bytes64, hk]
    | succ j =>
      rw [List.getD_append_right _ _ _ _ (by rw [bytes64_length]; omega), bytes64_length,
        show 8 * (j + 1) + k - 8 = 8 * j + k by omega]
      exact ih j (Nat.lt_of_succ_lt_succ hj)

/-- The parameter block acceptance latches, byte by byte (R24, R93). -/
theorem latch_pb_getElem (g : Regs) (w : Word) (j k : Fin 8) :
    (g.latch w).pb[8 * j.val + k.val] = byteOf g.param[j] k.val := by
  rw [Regs.latch, padTo_getElem]
  exact getD_flatMap_bytes64 g.param.toList j k (by simp) k.isLt

theorem writeReg_cmd_of_busy {s : State} (hbusy : s.busy = true) (w : Word) : s.writeReg .cmd w = s := by
  simp [State.writeReg, hbusy]

/-- Settles O41: an idle engine accepts the word, and the latched block is the one of `latch_pb_getElem`. -/
theorem acceptance : Obligations.Acceptance := by
  intro s w
  refine ⟨fun hidle => ?_, fun hbusy => writeReg_cmd_of_busy hbusy w⟩
  exact ⟨_, latch_pb_getElem s.regs w, writeReg_cmd_of_idle hidle w⟩

/-! ### Which moves change BUSY or ERR (R93, R94, R98) -/

/-- BUSY and ERR have changed from `s` to `t`: one of them at least. -/
def StatusChanges (s t : State) : Prop := t.busy ≠ s.busy ∨ t.err ≠ s.err

theorem not_statusChanges {s t : State} (hbusy : t.busy = s.busy) (herr : t.err = s.err) : ¬ StatusChanges s t := by
  simp [StatusChanges, hbusy, herr]

/-- A register write that changes BUSY or ERR is the acceptance of a command by an idle engine. -/
theorem accept_of_writeReg_changes {s : State} {r : Reg} {v : Word} (h : StatusChanges s (s.writeReg r v)) :
    r = .cmd ∧ s.busy = false ∧ s.writeReg r v = s.accept v := by
  by_cases hr : r = .cmd
  · subst hr
    cases hbusy : s.busy with
    | false => exact ⟨rfl, rfl, writeReg_cmd_of_idle hbusy v⟩
    | true =>
      rw [writeReg_cmd_of_busy hbusy] at h
      exact absurd h (not_statusChanges rfl rfl)
  · obtain ⟨f, hf⟩ := writeReg_updates_regs v hr
    rw [hf] at h
    exact absurd h (not_statusChanges rfl rfl)

/-- CMD stands in the first slot only (R14). -/
theorem ofSlot_eq_cmd {k : Nat} (h : Reg.ofSlot k = some .cmd) : k = 0 := by
  have hoff := offset_of_ofSlot h
  simp only [Reg.offset] at hoff
  omega

theorem accept_of_writeSlot_changes {s : State} {k : Nat} {v : Word} (h : StatusChanges s (s.writeSlot k v)) :
    k = 0 ∧ s.busy = false ∧ s.writeSlot k v = s.accept v := by
  cases hslot : Reg.ofSlot k with
  | none =>
    rw [State.writeSlot, hslot] at h
    exact absurd h (not_statusChanges rfl rfl)
  | some r =>
    have hwrite : s.writeSlot k v = s.writeReg r v := by rw [State.writeSlot, hslot]
    rw [hwrite] at h ⊢
    obtain ⟨rfl, hbusy, haccept⟩ := accept_of_writeReg_changes h
    exact ⟨ofSlot_eq_cmd hslot, hbusy, haccept⟩

/-- A register access with a meaning is an aligned 8-byte access in the block (R45). -/
theorem form_of_accessRefusal_eq_none {p : Platform} {addr width : Nat} (h : p.accessRefusal addr width = none) :
    p.base ≤ addr ∧ width = 8 ∧ (addr - p.base) % 8 = 0 := by
  simp only [Platform.accessRefusal] at h
  split_ifs at h with hblock haligned
  simp only [Platform.inBlock, Platform.aligned, Bool.not_eq_false, Bool.and_eq_true, decide_eq_true_eq,
    beq_iff_eq] at hblock haligned
  exact ⟨hblock.1, haligned⟩

/-- A host access that changes BUSY or ERR is an 8-byte store to CMD that an idle engine accepts. -/
theorem cmdStore_of_hostAccess_changes {s t : State} {a : Access} (h : s.hostAccess a = .next t)
    (hchanges : StatusChanges s t) :
    s.busy = false ∧ ∃ w, a = .regStore s.platform.base 8 w ∧ t = s.accept w := by
  cases a with
  | regStore addr width w =>
    simp only [State.hostAccess] at h
    split at h
    · cases h
    next hform =>
      cases h
      obtain ⟨hslot, hbusy, haccept⟩ := accept_of_writeSlot_changes hchanges
      obtain ⟨hlow, rfl, haligned⟩ := form_of_accessRefusal_eq_none hform
      have haddr : addr = s.platform.base := by
        simp only [Platform.slot] at hslot
        omega
      exact ⟨hbusy, w, by rw [haddr], haccept⟩
  | regLoad addr width =>
    simp only [State.hostAccess] at h
    split at h <;> cases h
    exact absurd hchanges (not_statusChanges rfl rfl)
  | memLoad addr len =>
    simp only [State.hostAccess] at h
    split_ifs at h
    cases h
    exact absurd hchanges (not_statusChanges rfl rfl)
  | memStore addr bytes =>
    simp only [State.hostAccess] at h
    split_ifs at h
    cases h
    exact absurd hchanges (not_statusChanges rfl rfl)

/-- An engine's move that changes BUSY or ERR is the completion of a command. -/
theorem completion_of_engineMove_changes {s t : State} (h : s.engineMove = .next t) (hchanges : StatusChanges s t) :
    s.busy = true ∧ t.busy = false := by
  obtain ⟨hreset, -⟩ := engineMove_next h
  cases hbusy : s.busy with
  | false =>
    rw [engineMove_of_idle hbusy h] at hchanges
    exact absurd hchanges (not_statusChanges rfl rfl)
  | true =>
    obtain ⟨t', hmove, hidle, -⟩ := engineMove_completes hreset hbusy
    cases h.symm.trans hmove
    exact ⟨rfl, hidle⟩

/-- Settles O57: by the agent that moves (`step_next`); taking the move off the schedule changes neither BUSY nor
ERR. -/
theorem whatChangesStatus : Obligations.WhatChangesStatus := by
  intro s t h hchanges
  have hpop : StatusChanges s.popMove t := hchanges
  obtain ⟨hmove, hengine⟩ | ⟨hmove, -⟩ | ⟨a, hmove, -, hhost⟩ := step_next h
  · exact .inl ⟨hmove, completion_of_engineMove_changes (s := s.popMove) hengine hpop⟩
  · exact .inr (.inl hmove)
  · obtain ⟨hidle, w, rfl, rfl⟩ := cmdStore_of_hostAccess_changes hhost hpop
    exact .inr (.inr ⟨hidle, rfl, rfl, w, hmove, rfl⟩)

end Sys2Proof.Proofs
end

section
/-!
PROOFS. The reset signal (spec/70_reset_and_hazards.md rules R111, R112): the values the engine takes, what memory keeps
of an abandoned command's output range, and the moves before the first reset.
-/

namespace Sys2Proof.Proofs

open Sys2Proof.Machine

/-! ### The register block after reset (R111) -/

/-- STATUS reads 0 with BUSY 0, no error and no session (R16). -/
theorem status_eq_zero {s : State} (hbusy : s.busy = false) (herr : s.err = .ok)
    (hphase : s.ctx.phase = .uninitialized) : s.status = 0 := by
  simp [State.status, hbusy, herr, hphase, Phase.code, ErrCode.code]

theorem readReg_eq_zero {s : State} (hregs : s.regs = Regs.reset) (hstatus : s.status = 0) (r : Reg) :
    s.readReg r = 0 := by
  cases r with
  | status => exact hstatus
  | param j => simp [State.readReg, hregs, Regs.reset]
  | _ => rw [State.readReg, hregs]; rfl

/-- Every slot reads 0: a register by `readReg_eq_zero`, a reserved slot always (R25). -/
theorem readSlot_eq_zero {s : State} (hregs : s.regs = Regs.reset) (hstatus : s.status = 0) (k : Nat) :
    s.readSlot k = 0 := by
  rw [State.readSlot]
  split
  · exact readReg_eq_zero hregs hstatus _
  · rfl

/-- Settles O51: the register block by `readSlot_eq_zero`, the other values by the reset state's fields. -/
theorem resetValues : Obligations.ResetValues :=
  ⟨fun _ k _ => readSlot_eq_zero rfl (status_eq_zero rfl rfl rfl) k, fun _ => ⟨rfl, rfl, rfl, rfl, rfl, rfl⟩,
    Platform.default, rfl⟩

/-- Settles O55: an empty memory is canonical, and the session is that of `sessionReset_inv`. -/
theorem resetMeetsInvariant : Obligations.ResetMeetsInvariant := fun _ =>
  { mem_wf := ⟨.nil, List.forall_mem_nil _⟩
    mem_inSpace := List.forall_mem_nil _
    session := sessionReset_inv
    busy_err := fun _ => rfl }

/-! ### An abandoned command's output range (R111) -/

/-- Drawing a range's bytes leaves every byte outside it. -/
theorem read_scramble_other {s : State} {r : Range} {a : Nat} (h : a < r.addr ∨ r.addr + r.len ≤ a) :
    (s.scramble r).mem.read a = s.mem.read a :=
  Memory.read_writeBytes_other _ _ _ _ (by rw [freeBytes_length]; omega)

/-- A byte of the range reads as the free value drawn for it, up to the end of host memory (R40). -/
theorem read_scramble_same {s : State} {r : Range} {j : Nat} (hwf : s.mem.wf) (hj : j < r.len)
    (hspace : r.addr + j < Config.memSize) :
    (s.scramble r).mem.read (r.addr + j) = Config.freeByte (s.freeCtr + j) := by
  have hdrawn : j < min r.len (Config.memSize - r.addr) := by omega
  refine (Memory.read_writeBytes_same _ _ _ _ hwf (by rwa [freeBytes_length])).trans ?_
  simp [freeBytes]

theorem read_foldl_scramble_other {rs : List Range} {s : State} {a : Nat}
    (h : ∀ r ∈ rs, a < r.addr ∨ r.addr + r.len ≤ a) : (rs.foldl State.scramble s).mem.read a = s.mem.read a := by
  induction rs generalizing s with
  | nil => rfl
  | cons r rs ih =>
    obtain ⟨hr, hrs⟩ := List.forall_mem_cons.mp h
    exact (ih hrs).trans (read_scramble_other hr)

/-- A command writes one range at most (R96). -/
theorem writeRanges_eq_singleton {s : State} {i : Instr} {r : Range} (h : r ∈ s.writeRanges i) :
    s.writeRanges i = [r] := by
  cases i with
  | init | initParams | update => cases h
  | final | hash | hashLong => rw [List.mem_singleton.mp h]; rfl

/-- An illegal word has no output range, so its abandonment leaves everything (R61, R96). -/
theorem abandon_of_illegal {s : State} {e : DecodeError} (h : decodeCommand s.latch.cmd = .error e) :
    s.abandon = s := by
  simp [State.abandon, State.outputRanges, h]

/-- A running command's output ranges are what a reset draws anew. -/
theorem abandon_of_running {s : State} {i : Instr} (hbusy : s.busy = true) (h : decodeCommand s.latch.cmd = .ok i) :
    s.abandon = (s.writeRanges i).foldl State.scramble s := by
  simp [State.abandon, State.outputRanges, hbusy, h]

/-! ### The reset's move (R111) -/

/-- Where the reset moves next, the step is a reset. -/
theorem step_of_reset {s : State} (h : s.nextMove = .reset) : step s = .next s.popMove.applyReset := by
  rw [step, h, State.runMove]

/-- Settles O50: the engine's values are those of `applyReset`, and memory is `abandon`'s: that of the state before for
an idle engine and for an illegal word, and with the one output range drawn anew for a running command. -/
theorem resetSignal : Obligations.ResetSignal := by
  intro s hmove
  refine ⟨_, step_of_reset hmove, fun k _ => readSlot_eq_zero rfl (status_eq_zero rfl rfl rfl) k, rfl, rfl, rfl, rfl,
    rfl, rfl, rfl, rfl, rfl, fun hidle => ?_, fun _ e hillegal => ?_, fun hbusy i hdecode => ?_⟩
  · rw [State.applyReset_mem, abandon_of_idle (s := s.popMove) hidle, State.popMove_mem]
  · rw [State.applyReset_mem, abandon_of_illegal (s := s.popMove) hillegal, State.popMove_mem]
  · have hranges : s.popMove.writeRanges i = s.writeRanges i := rfl
    rw [State.applyReset_mem, abandon_of_running (s := s.popMove) hbusy hdecode, hranges]
    refine ⟨fun a houtside => read_foldl_scramble_other houtside, fun hwf r hr j hj hspace => ?_⟩
    rw [writeRanges_eq_singleton hr]
    exact read_scramble_same (s := s.popMove) hwf hj hspace

/-! ### Before the first reset (R112) -/

/-- Settles O58: the engine's move and a host access ask for `resetDone` first, and the reset's move asks for
nothing. -/
theorem noStepBeforeReset : Obligations.NoStepBeforeReset := by
  intro s hbefore
  refine ⟨fun hmove => ?_, fun hmove => ⟨_, step_of_reset hmove, rfl⟩⟩
  rw [step]
  cases hnext : s.nextMove with
  | engine => simp [State.runMove, State.engineMove, hbefore]
  | reset => exact absurd hnext hmove
  | host a => simp [State.runMove, hbefore]

end Sys2Proof.Proofs
end
